-- ==== Sys2Proof/Word.lean ====
section
/-! DEFINITION. The word type: everything the block exchanges is a byte, and byte lists are in wire order. -/

namespace Sys2Proof

/-- A byte, an unsigned value in `0 .. 255` (00_scope.md R14). Every packet field is one byte (20_memory.md R53). -/
abbrev Byte := BitVec 8

end Sys2Proof
end

