-- ==== Sys2Proof/Syntax.lean ====
section
/-! DEFINITION. What a host can ask of the block: the eight wire instructions, the host commands, and the names of
the checks a command can fail. -/

namespace Sys2Proof

/-- The eight wire instructions, one per row of the opcode table (30_encoding.md R76). -/
inductive Opcode where
  | ping | read | write | regWrite | action | reset | syncRead | syncWrite
deriving DecidableEq, Repr

/-- The named error flags of a status packet and the name of the one bit no named flag occupies
(10_state.md R31, 30_encoding.md R87). -/
inductive Flag where
  | voltage | angleLimit | overheat | range | checksumDev | overload | instruction | reserved7
deriving DecidableEq, Repr

/-- Which check failed: the ENCODING reasons of 60_exceptions.md R201, then the PORT_CLOSED reasons of R202. -/
inductive Reason where
  | badId | badBroadcast | tooLong | badShape | badWidth | valueRange | emptyIds | dupId | missingValue
  | badPacket | alreadyOpen
  | notOpen | ioFail
deriving DecidableEq, Repr

/-- The wire instructions with the operands of the host command of the same name (42_commands.md R169 to R180).
Widths are natural numbers as the rules have them; `syncWrite`'s map from ids to bytes is a list of pairs in which
the first pair of an id counts (DESIGN CHOICE, assumption 14). SYNC_READ has no operands in the spec (30_encoding.md R85): its
constructor carries a request id and a parameter block, which the framer can frame. -/
inductive Instr where
  | ping (id : Byte)
  | read (id addr : Byte) (w : Nat)
  | write (id addr : Byte) (data : List Byte)
  | regWrite (id addr : Byte) (data : List Byte)
  | action (id : Byte)
  | reset (id : Byte)
  | syncRead (id : Byte) (params : List Byte)
  | syncWrite (ids : List Byte) (addr : Byte) (w : Nat) (data : List (Byte × List Byte))
deriving DecidableEq, Repr

/-- The name of a serial port, opaque to every rule (10_state.md R23). -/
abbrev PortName := String

/-- Everything a host can present on the command interface (10_state.md R38): the typed wire instructions, the raw
TRANSACT (42_commands.md R166), OPEN (R167), CLOSE (R168), and the pseudo-instructions readRegister (R171),
writeRegister (R174) and syncWrite on values (R179). -/
inductive Command where
  | instr (i : Instr)
  | transact (q : List Byte) (expect : Bool)
  | openPort (port : PortName) (baud timeout : Nat)
  | closePort
  | readRegister (id addr : Byte) (w : Nat)
  | writeRegister (id addr : Byte) (v w : Nat)
  | syncWriteValues (ids : List Byte) (addr : Byte) (w : Nat) (values : List (Byte × Nat))
deriving DecidableEq, Repr

end Sys2Proof
end

