-- ==== Sys2Proof/Config.lean ====
section
/-! DEFINITION. The configuration arguments of the model (00_scope.md R10 to R12, 20_memory.md R54) and what makes them legal. The
default profile itself is `Config.standard`, in Decode.lean. -/

namespace Sys2Proof

/-- INSTR_CODE: the instruction code of each wire instruction (00_scope.md R12). Its values are not in the source,
so they are an argument of the model. -/
structure InstrCodes where
  ping : Byte
  read : Byte
  write : Byte
  regWrite : Byte
  action : Byte
  reset : Byte
  syncRead : Byte
  syncWrite : Byte
deriving DecidableEq, Repr

/-- ERRBIT: the bit of the error byte that carries each named flag (00_scope.md R12), likewise an argument. -/
structure ErrBits where
  voltage : Fin 8
  angleLimit : Fin 8
  overheat : Fin 8
  range : Fin 8
  checksumDev : Fin 8
  overload : Fin 8
  instruction : Fin 8
deriving DecidableEq, Repr

/-- LINE_FORMAT: the order of bits within a byte on the line and the character format around each byte. Opaque: the
block exchanges whole bytes with the line, and no rule reads it (20_memory.md R54; its type is a DESIGN CHOICE,
assumption 19). -/
abbrev LineFormat := String

/-- The configuration arguments: MAX_PACKET_BYTES (R10), LOOKAHEAD_W (R11), INSTR_CODE and ERRBIT (R12), and
LINE_FORMAT (20_memory.md R54). TIMEOUT and BAUD are values OPEN latches. -/
structure Config where
  maxPacketBytes : Nat
  lookahead : Nat
  instrCode : InstrCodes
  errBit : ErrBits
  lineFormat : LineFormat
deriving DecidableEq, Repr

/-- The codes as a list, in the order of the opcode table. -/
def InstrCodes.toList (c : InstrCodes) : List Byte :=
  [c.ping, c.read, c.write, c.regWrite, c.action, c.reset, c.syncRead, c.syncWrite]

/-- The bit positions as a list, in the order the source names the flags. -/
def ErrBits.toList (e : ErrBits) : List (Fin 8) :=
  [e.voltage, e.angleLimit, e.overheat, e.range, e.checksumDev, e.overload, e.instruction]

/-- What 00_scope.md asks of the arguments: `6 <= MAX_PACKET_BYTES <= 259` (R10), INSTR_CODE and ERRBIT injective
(R12). Every LOOKAHEAD_W (R11) and every LINE_FORMAT is legal. -/
def Config.wf (c : Config) : Bool :=
  decide (6 ≤ c.maxPacketBytes) && decide (c.maxPacketBytes ≤ 259)
    && decide c.instrCode.toList.Nodup && decide c.errBit.toList.Nodup

/-- MAX_PARAMS, the largest parameter count (00_scope.md R10). -/
def Config.maxParams (c : Config) : Nat := c.maxPacketBytes - 6

end Sys2Proof
end

