-- ==== Sys2Proof/WellFormed.lean ====
section
/-! DEFINITION. Which instructions a packet can carry: the operand checks of 42_commands.md and the size ceiling, as
one Boolean check per instruction. -/

namespace Sys2Proof

/-- An instruction is well formed when its operands pass the checks of its command (42_commands.md R169 to R178)
and its packet fits in MAX_PACKET_BYTES (40_framer.md R103). The bytes of a SYNC_WRITE are listed entry by entry in
the order of its ids, so that equal requests are equal instructions (DESIGN CHOICE, assumption 14). SYNC_READ has no operand rule:
only what the framer itself checks (40_framer.md R103, R104) is asked of it. -/
def Instr.wf (cfg : Config) : Instr → Bool
  | .ping id => decide (id.toNat ≤ 253)
  | .read id _ w => decide (id.toNat ≤ 253) && decide (1 ≤ w) && decide (w ≤ cfg.maxParams)
      && decide (8 ≤ cfg.maxPacketBytes)
  | .write id _ data => decide (id.toNat ≤ 254) && decide (1 ≤ data.length)
      && decide (data.length + 7 ≤ cfg.maxPacketBytes)
  | .regWrite id _ data => decide (id.toNat ≤ 254) && decide (1 ≤ data.length)
      && decide (data.length + 7 ≤ cfg.maxPacketBytes)
  | .action id => decide (id.toNat ≤ 254)
  | .reset id => decide (id.toNat ≤ 254)
  | .syncRead id params => decide (id.toNat ≤ 254) && decide (params.length + 6 ≤ cfg.maxPacketBytes)
  | .syncWrite ids _ w data => decide (ids ≠ []) && ids.all (fun id => decide (id.toNat ≤ 253))
      && decide ids.Nodup && decide (1 ≤ w) && decide (w ≤ 255)
      && decide (data.map Prod.fst = ids) && data.all (fun e => decide (e.2.length = w))
      && decide (8 + ids.length * (w + 1) ≤ cfg.maxPacketBytes)

end Sys2Proof
end

