-- ==== Sys2Proof/Decode.lean ====
section
/-! DEFINITION. Packets: the default profile, the checksum, the frame scan and its uses (41_decoder.md), the reading
of a packet as an instruction, and after it the framer and the encoder (40_framer.md). -/

namespace Sys2Proof

/-! ## The default profile -/

/-- The default INSTR_CODE, which the spec marks as from general knowledge (30_encoding.md R76; PRESUMED, assumption 2). -/
def InstrCodes.standard : InstrCodes :=
  { ping := 0x01, read := 0x02, write := 0x03, regWrite := 0x04, action := 0x05, reset := 0x06,
    syncRead := 0x82, syncWrite := 0x83 }

/-- The default ERRBIT, which the spec marks as from general knowledge (30_encoding.md R87; PRESUMED, assumption 3). -/
def ErrBits.standard : ErrBits :=
  { voltage := 0, angleLimit := 1, overheat := 2, range := 3, checksumDev := 4, overload := 5, instruction := 6 }

/-- The default arguments of 00_scope.md R10 to R12 (DESIGN CHOICE, assumption 4), and a LINE_FORMAT that names none
(DESIGN CHOICE, assumption 19). -/
def Config.standard : Config :=
  { maxPacketBytes := 250, lookahead := 250, instrCode := InstrCodes.standard, errBit := ErrBits.standard,
    lineFormat := "" }

/-- INSTR_CODE(instr) (30_encoding.md R76). -/
def InstrCodes.code (c : InstrCodes) : Opcode → Byte
  | .ping => c.ping
  | .read => c.read
  | .write => c.write
  | .regWrite => c.regWrite
  | .action => c.action
  | .reset => c.reset
  | .syncRead => c.syncRead
  | .syncWrite => c.syncWrite

/-- The eight wire instructions. -/
def Opcode.all : List Opcode := [.ping, .read, .write, .regWrite, .action, .reset, .syncRead, .syncWrite]

/-- BROADCAST_ID (00_scope.md R9). -/
def broadcastId : Byte := 254

/-! ## Byte sums -/

/-- `sum(l)`, over the natural numbers (00_scope.md R15). -/
def byteSum : List Byte → Nat
  | [] => 0
  | b :: l => b.toNat + byteSum l

/-- `Checksum(l) = 255 - (sum(l) mod 256)` (40_framer.md R102, 30_encoding.md R74). -/
def checksum (l : List Byte) : Byte := BitVec.ofNat 8 (255 - byteSum l % 256)

/-! ## The frame scan -/

/-- The results of `FrameScan` (41_decoder.md R120). -/
inductive Scan where
  | frame (id len b4 : Byte) (params : List Byte) (start stop : Nat)
  | ckFail (start stop : Nat)
  | noSync
  | short (sync : Bool)
deriving DecidableEq, Repr

/-- The sync candidate at index `i`, of which `rest` are the bytes after the marker: its outcome, or `none` when the
candidate is dropped because a third 0xFF follows (41_decoder.md R122) or the length byte is implausible (R123).
A missing byte is decided before the checksum (60_exceptions.md R210). -/
def scanCandidate (cfg : Config) (i : Nat) : List Byte → Option Scan
  | [] => some (.short true)
  | id :: afterId =>
    if id = 0xFF then none
    else match afterId with
      | [] => some (.short true)
      | len :: body =>
        if len.toNat < 2 ∨ cfg.maxPacketBytes < len.toNat + 4 then none
        else if body.length < len.toNat then some (.short true)
        else if body.getD (len.toNat - 1) 0 ≠ checksum (id :: len :: body.take (len.toNat - 1)) then
          some (.ckFail i (i + 4 + len.toNat))
        else
          some (.frame id len (body.getD 0 0) ((body.take (len.toNat - 1)).drop 1) i (i + 4 + len.toNat))

/-- The loop of 41_decoder.md R121 from index `i` on; the list is the buffer without its first `i` bytes. -/
def scanFrom (cfg : Config) : Nat → List Byte → Scan
  | i, [] => if cfg.lookahead < i then .noSync else .short false
  | i, [_] => if cfg.lookahead < i then .noSync else .short false
  | i, b0 :: b1 :: rest =>
    if cfg.lookahead < i then .noSync
    else if b0 = 0xFF ∧ b1 = 0xFF then
      match scanCandidate cfg i rest with
      | some r => r
      | none => scanFrom cfg (i + 1) (b1 :: rest)
    else scanFrom cfg (i + 1) (b1 :: rest)

/-- `FrameScan(buf)` (41_decoder.md R121). -/
def frameScan (cfg : Config) (buf : List Byte) : Scan := scanFrom cfg 0 buf

/-! ## Status packets -/

/-- The failures `Decode` raises (41_decoder.md R126). -/
inductive DecodeFailure where
  | checksum | framing | malformed
deriving DecidableEq, Repr

/-- A decoded status packet, its error byte still raw (41_decoder.md R126, 30_encoding.md R72). -/
structure StatusPacket where
  id : Byte
  err : Byte
  params : List Byte
deriving DecidableEq, Repr

/-- `Decode(buf)` (41_decoder.md R126). -/
def decodeStatus (cfg : Config) (buf : List Byte) : Except DecodeFailure StatusPacket :=
  match frameScan cfg buf with
  | .frame id _ e params _ _ => .ok { id := id, err := e, params := params }
  | .ckFail _ _ => .error .checksum
  | .short true => .error .framing
  | .short false => .error .malformed
  | .noSync => .error .malformed

/-! ## Requests -/

/-- `DecodeInstr(b)`; `none` is the verdict ILLEGAL (41_decoder.md R130). -/
def decodeInstr (cfg : Config) (b : Byte) : Option Opcode :=
  Opcode.all.find? (fun o => decide (cfg.instrCode.code o = b))

/-- The id bytes of a SYNC_WRITE parameter block of width `w`: `id_j = p[2 + j*(w+1)]` for `j < n`
(41_decoder.md R131). -/
def syncEntryIds (w : Nat) (p : List Byte) : List Byte :=
  (List.range ((p.length - 2) / (w + 1))).map (fun j => p.getD (2 + j * (w + 1)) 0)

/-- `ShapeOK(instr, p)` (41_decoder.md R131, 30_encoding.md R78 to R85). -/
def shapeOk : Opcode → List Byte → Bool
  | .ping, p => decide (p.length = 0)
  | .read, p => decide (p.length = 2) && decide (1 ≤ (p.getD 1 0).toNat)
  | .write, p => decide (2 ≤ p.length)
  | .regWrite, p => decide (2 ≤ p.length)
  | .action, p => decide (p.length = 0)
  | .reset, p => decide (p.length = 0)
  | .syncRead, _ => true
  | .syncWrite, p =>
    let w := (p.getD 1 0).toNat
    decide (2 ≤ p.length) && decide (1 ≤ w) && decide (w + 1 ≤ p.length - 2)
      && decide ((p.length - 2) % (w + 1) = 0)
      && (syncEntryIds w p).all (fun id => decide (id.toNat ≤ 253)) && decide (syncEntryIds w p).Nodup

/-- The verdicts of `DecodeRequest` (41_decoder.md R132). -/
inductive Verdict where
  | illegalInstruction | badShape | badBroadcast
deriving DecidableEq, Repr

/-- Why bytes are not read as a request: a failure of `Decode`, or a verdict (41_decoder.md R132). -/
inductive Reject where
  | failure (f : DecodeFailure)
  | verdict (v : Verdict)
deriving DecidableEq, Repr

/-- A decoded request (41_decoder.md R132). -/
structure Request where
  id : Byte
  op : Opcode
  params : List Byte
deriving DecidableEq, Repr

/-- The instructions a broadcast request may not carry (41_decoder.md R132). -/
def awaitsData : Opcode → Bool
  | .ping | .read | .syncRead => true
  | .write | .regWrite | .action | .reset | .syncWrite => false

/-- `DecodeRequest(buf)` (41_decoder.md R132). -/
def decodeRequest (cfg : Config) (buf : List Byte) : Except Reject Request :=
  match frameScan cfg buf with
  | .frame id _ b p _ _ =>
    match decodeInstr cfg b with
    | none => .error (.verdict .illegalInstruction)
    | some op =>
      if shapeOk op p = false then .error (.verdict .badShape)
      else if id = broadcastId ∧ awaitsData op = true then .error (.verdict .badBroadcast)
      else if op = .syncWrite ∧ id ≠ broadcastId then .error (.verdict .badBroadcast)
      else .ok { id := id, op := op, params := p }
  | .ckFail _ _ => .error (.failure .checksum)
  | .short true => .error (.failure .framing)
  | .short false => .error (.failure .malformed)
  | .noSync => .error (.failure .malformed)

/-! ## Reading a packet as an instruction -/

/-- The entries of a SYNC_WRITE block: one id byte, then `w` data bytes, again and again (30_encoding.md R84);
`none` when the last entry is cut short. The first argument bounds the number of entries. -/
def splitEntries (w : Nat) : Nat → List Byte → Option (List (Byte × List Byte))
  | _, [] => some []
  | 0, _ :: _ => none
  | n + 1, id :: more =>
    if more.length < w then none
    else (splitEntries w n (more.drop w)).map (fun es => (id, more.take w) :: es)

/-- A parameter block cut into the operands of its instruction (30_encoding.md R78 to R85). It says nothing of the
operands' values, which `Instr.wf` and the command's checks judge (DESIGN CHOICE, assumption 13). SYNC_WRITE goes to the broadcast
id (R84). -/
def instrOf (op : Opcode) (id : Byte) (params : List Byte) : Except Verdict Instr :=
  match op with
  | .ping => if params = [] then .ok (.ping id) else .error .badShape
  | .action => if params = [] then .ok (.action id) else .error .badShape
  | .reset => if params = [] then .ok (.reset id) else .error .badShape
  | .read =>
    match params with
    | [addr, w] => .ok (.read id addr w.toNat)
    | _ => .error .badShape
  | .write =>
    match params with
    | addr :: data => .ok (.write id addr data)
    | [] => .error .badShape
  | .regWrite =>
    match params with
    | addr :: data => .ok (.regWrite id addr data)
    | [] => .error .badShape
  | .syncRead => .ok (.syncRead id params)
  | .syncWrite =>
    if id ≠ broadcastId then .error .badBroadcast
    else match params with
      | addr :: w :: block =>
        match splitEntries w.toNat block.length block with
        | some es => .ok (.syncWrite (es.map Prod.fst) addr w.toNat es)
        | none => .error .badShape
      | _ => .error .badShape

/-- Bytes read as an instruction, total and rejecting by name: the frame of 41_decoder.md R121, its instruction byte
(R130), its operands. -/
def decode (cfg : Config) (buf : List Byte) : Except Reject Instr :=
  match frameScan cfg buf with
  | .frame id _ b p _ _ =>
    match decodeInstr cfg b with
    | none => .error (.verdict .illegalInstruction)
    | some op =>
      match instrOf op id p with
      | .ok i => .ok i
      | .error v => .error (.verdict v)
  | .ckFail _ _ => .error (.failure .checksum)
  | .short true => .error (.failure .framing)
  | .short false => .error (.failure .malformed)
  | .noSync => .error (.failure .malformed)

/-! ## The framer and the encoder -/

/-- The bytes from the id through the last parameter: `[id, P + 2, b4] ++ params` (40_framer.md R101, R102). -/
def packetBody (id b4 : Byte) (params : List Byte) : List Byte :=
  id :: BitVec.ofNat 8 (params.length + 2) :: b4 :: params

/-- The common layout of every packet, request or status (30_encoding.md R70). -/
def packetBytes (id b4 : Byte) (params : List Byte) : List Byte :=
  [0xFF, 0xFF] ++ packetBody id b4 params ++ [checksum (packetBody id b4 params)]

/-- `Encode(id, instr, params)` (40_framer.md R100): BAD_ID is checked before TOO_LONG. -/
def encodePacket (cfg : Config) (id : Byte) (op : Opcode) (params : List Byte) : Except Reason (List Byte) :=
  if id = 255 then .error .badId
  else if cfg.maxPacketBytes < params.length + 6 then .error .tooLong
  else .ok (packetBytes id (cfg.instrCode.code op) params)

/-- The wire instruction of an instruction. -/
def Instr.opcode : Instr → Opcode
  | .ping _ => .ping
  | .read _ _ _ => .read
  | .write _ _ _ => .write
  | .regWrite _ _ _ => .regWrite
  | .action _ => .action
  | .reset _ => .reset
  | .syncRead _ _ => .syncRead
  | .syncWrite _ _ _ _ => .syncWrite

/-- The id byte of an instruction's request (42_commands.md R181). -/
def Instr.target : Instr → Byte
  | .ping id => id
  | .read id _ _ => id
  | .write id _ _ => id
  | .regWrite id _ _ => id
  | .action id => id
  | .reset id => id
  | .syncRead id _ => id
  | .syncWrite _ _ _ _ => broadcastId

/-- The parameter block of a SYNC_WRITE: `[addr, w]`, then for every id, in the order of `ids`, the id and its bytes
(30_encoding.md R84, 42_commands.md R178). -/
def syncParams (ids : List Byte) (addr : Byte) (w : Nat) (data : List (Byte × List Byte)) : List Byte :=
  addr :: BitVec.ofNat 8 w :: ids.flatMap (fun id => id :: (data.lookup id).getD [])

/-- The parameter block of an instruction (42_commands.md R181). -/
def Instr.params : Instr → List Byte
  | .ping _ => []
  | .read _ addr w => [addr, BitVec.ofNat 8 w]
  | .write _ addr data => addr :: data
  | .regWrite _ addr data => addr :: data
  | .action _ => []
  | .reset _ => []
  | .syncRead _ params => params
  | .syncWrite ids addr w data => syncParams ids addr w data

/-- The packet of an instruction. -/
def encode (cfg : Config) (i : Instr) : Except Reason (List Byte) :=
  encodePacket cfg i.target i.opcode i.params

/-! ## The opcode table's words -/

/-- The first `n` bytes of a number, lowest byte first. -/
def wordBytes : Nat → Nat → List Byte
  | 0, _ => []
  | n + 1, w => BitVec.ofNat 8 w :: wordBytes n (w / 256)

/-- How many parameter bytes the shortest block of an instruction has (30_encoding.md R78 to R85); for SYNC_WRITE
with `w` zero that is the address, the width and one id. -/
def minParams : Opcode → Nat
  | .ping => 0
  | .read => 2
  | .write => 2
  | .regWrite => 2
  | .action => 0
  | .reset => 0
  | .syncRead => 0
  | .syncWrite => 3

/-- The packet the opcode table's bits stand for: its first byte is byte 4, the bytes after it are parameters, filled
with zeros up to the shortest block. The id is 0, for SYNC_WRITE the broadcast id the row fixes; marker, length and
checksum are the framer's (DESIGN CHOICE, assumption 11). -/
def tablePacket (cfg : Config) : List Byte → List Byte
  | [] => []
  | b4 :: given =>
    let least := ((decodeInstr cfg b4).map minParams).getD 0
    let id := if decodeInstr cfg b4 = some .syncWrite then broadcastId else 0
    packetBytes id b4 (given ++ List.replicate (least - given.length) 0)

/-- `decodeTableWord` under any configuration. -/
def decodeTableWordFor (cfg : Config) (nbits w : Nat) : Option Instr :=
  match decode cfg (tablePacket cfg (wordBytes (nbits / 8) w)) with
  | .ok i => some i
  | .error _ => none

/-- The instruction the decoder reads from bits numbered as the opcode table numbers them, under the default
profile. -/
def decodeTableWord (nbits w : Nat) : Option Instr := decodeTableWordFor Config.standard nbits w

end Sys2Proof
end

