-- ==== Sys2Proof/Machine/State.lean ====
section
/-! DEFINITION. The state of the block (10_state.md), the records it is made of, the reasons a step can stop, and the
state after reset. -/

namespace Sys2Proof.Machine

/-- The arbiter's phase (10_state.md R22). -/
inductive Phase where
  | closed | idle | tx | rxWait
deriving DecidableEq, Repr

/-- The name of the command that started a transaction (10_state.md R26; DEDUCED, assumption 15). OPEN, CLOSE and SYNC_READ
start none; the pseudo-instructions start the transaction of the command they expand to. -/
inductive TxnCmd where
  | transact | ping | read | write | regWrite | action | reset | syncWrite
deriving DecidableEq, Repr

/-- The transaction in flight (10_state.md R26). -/
structure Txn where
  cmd : TxnCmd
  id : Byte
  instr : Option Opcode
  expect : Bool
  width : Option Nat
deriving DecidableEq, Repr

/-- The kind of a result (10_state.md R29, 60_exceptions.md R200). -/
inductive ResultKind where
  | ok | deviceError | timeout | framing | malformed | checksum | encoding | portClosed
deriving DecidableEq, Repr

/-- A set of error flags (10_state.md R29, R31): one Boolean per flag, so that equal sets are equal data. -/
structure FlagSet where
  voltage : Bool := false
  angleLimit : Bool := false
  overheat : Bool := false
  range : Bool := false
  checksumDev : Bool := false
  overload : Bool := false
  instruction : Bool := false
  reserved7 : Bool := false
deriving DecidableEq, Repr

/-- A result record (10_state.md R29). The fields not written keep the defaults of 42_commands.md R159. -/
structure Result where
  kind : ResultKind
  flags : FlagSet := {}
  params : List Byte := []
  value : Option Nat := none
  raw : Option (List Byte) := none
  reason : Option Reason := none
deriving DecidableEq, Repr

/-- What the environment can offer (00_scope.md R7). `cmd c` is a command newly presented; `reoffer k` says that the
command waiting at place `k` of `held` is looked at again (10_state.md R38, 42_commands.md R183; DESIGN CHOICE, assumption 6). -/
inductive Event where
  | cmd (c : Command)
  | reoffer (k : Nat)
  | txAccept
  | rxByte (b : Byte)
  | timeout
  | ioFail
deriving DecidableEq, Repr

/-- Why the machine stops with a fault. -/
inductive Fault where
  /-- Raised by the end of transmission and by the evaluation of a reply when the phase says a transaction is in
  flight and `cur` holds none. 10_state.md R22 and R40 say this cannot be, and the invariant `State.Inv` rules it
  out. Safe: the machine stops where no behaviour is given (DESIGN CHOICE, assumption 9). -/
  | noTransaction
deriving DecidableEq, Repr

/-- Why the machine gives an instruction no meaning. -/
inductive Refusal where
  /-- Raised by `exec` alone, for an instruction not modelled yet. Safe: nothing can be proved of such a run. -/
  | notModelled (mnemonic : String)
  /-- Raised by SYNC_READ on an open block (42_commands.md R180, 60_exceptions.md R203), which the spec refuses because
  no source gives it a meaning. Safe: nothing can be proved of such a run (DEDUCED, assumption 8). -/
  | syncReadUnspecified
deriving DecidableEq, Repr

/-- The state of the block. The first nine fields after `cfg` are the record `s` of 10_state.md; `held` and `events`
stand for the block's inputs, and `cfg` for the arguments that stay fixed. -/
structure State where
  /-- The configuration arguments, changed by no step (00_scope.md R10 to R12, 20_memory.md R54; DESIGN CHOICE, assumption 1). -/
  cfg : Config
  /-- The arbiter's phase (R22). -/
  phase : Phase
  /-- The port handed to OPEN (R23). -/
  port : Option PortName
  /-- The line rate handed to OPEN (R23). -/
  baud : Option Nat
  /-- The response timeout handed to OPEN (R23). -/
  timeout : Option Nat
  /-- The request bytes the line has not taken yet (R24). -/
  txq : List Byte
  /-- The bytes received and not consumed (R25). -/
  rxbuf : List Byte
  /-- The transaction in flight (R26). -/
  cur : Option Txn
  /-- Every byte written to the line, oldest first (R28). -/
  wireOut : List Byte
  /-- Every result delivered, oldest first (R30). -/
  results : List Result
  /-- The commands presented and not accepted yet (R38; DESIGN CHOICE, assumption 6). -/
  held : List Command
  /-- The events the environment offers, the next one first (00_scope.md R7; DESIGN CHOICE, assumption 5). -/
  events : List Event
deriving DecidableEq, Repr

/-- The state after reset (10_state.md R37, 70_reset_and_hazards.md R230) of a block built with the arguments `cfg`;
no command waits and no event is offered. -/
def State.resetWith (cfg : Config) : State :=
  { cfg := cfg, phase := .closed, port := none, baud := none, timeout := none, txq := [], rxbuf := [], cur := none,
    wireOut := [], results := [], held := [], events := [] }

/-- The state after reset, under the default profile (DESIGN CHOICE, assumption 4). -/
def State.reset : State := State.resetWith Config.standard

end Sys2Proof.Machine
end

