-- ==== Sys2Proof/Machine/Flags.lean ====
section
/-! DEFINITION. The error-flag parser of a status packet (41_decoder.md R140 to R144), the flag byte and the kind codes
a host reads (10_state.md R33, R34). -/

namespace Sys2Proof.Machine

/-- ERRBIT(f) (00_scope.md R12), for the named flags. -/
def namedBit (e : ErrBits) : Flag → Option (Fin 8)
  | .voltage => some e.voltage
  | .angleLimit => some e.angleLimit
  | .overheat => some e.overheat
  | .range => some e.range
  | .checksumDev => some e.checksumDev
  | .overload => some e.overload
  | .instruction => some e.instruction
  | .reserved7 => none

/-- The reserved bit of the error byte: the one bit not in the image of ERRBIT (30_encoding.md R88). -/
def reservedBit (e : ErrBits) : Fin 8 :=
  (([0, 1, 2, 3, 4, 5, 6, 7] : List (Fin 8)).find? (fun k => decide (k ∉ e.toList))).getD 7

/-- The bit of the error byte that stands for a flag, the reserved one included. -/
def flagBit (e : ErrBits) (f : Flag) : Fin 8 := (namedBit e f).getD (reservedBit e)

/-- `b[i]` (00_scope.md R14). -/
def byteBit (b : Byte) (i : Fin 8) : Bool := b.getLsbD i.val

/-- Whether a flag is in a flag set. -/
def FlagSet.has (F : FlagSet) : Flag → Bool
  | .voltage => F.voltage
  | .angleLimit => F.angleLimit
  | .overheat => F.overheat
  | .range => F.range
  | .checksumDev => F.checksumDev
  | .overload => F.overload
  | .instruction => F.instruction
  | .reserved7 => F.reserved7

/-- `ParseFlags(e)` (41_decoder.md R140). -/
def parseFlags (bits : ErrBits) (e : Byte) : FlagSet :=
  { voltage := byteBit e (flagBit bits .voltage)
    angleLimit := byteBit e (flagBit bits .angleLimit)
    overheat := byteBit e (flagBit bits .overheat)
    range := byteBit e (flagBit bits .range)
    checksumDev := byteBit e (flagBit bits .checksumDev)
    overload := byteBit e (flagBit bits .overload)
    instruction := byteBit e (flagBit bits .instruction)
    reserved7 := byteBit e (flagBit bits .reserved7) }

/-- One bit of a byte, set or clear. -/
def bitIf (i : Fin 8) (on : Bool) : Byte := if on then BitVec.twoPow 8 i.val else 0

/-- The flag byte of a flag set (10_state.md R33). -/
def flagByte (bits : ErrBits) (F : FlagSet) : Byte :=
  bitIf (flagBit bits .voltage) F.voltage ||| bitIf (flagBit bits .angleLimit) F.angleLimit
    ||| bitIf (flagBit bits .overheat) F.overheat ||| bitIf (flagBit bits .range) F.range
    ||| bitIf (flagBit bits .checksumDev) F.checksumDev ||| bitIf (flagBit bits .overload) F.overload
    ||| bitIf (flagBit bits .instruction) F.instruction ||| bitIf (flagBit bits .reserved7) F.reserved7

/-- The kind of an accepted status packet: DEVICE_ERROR exactly when the error byte is not zero (41_decoder.md R142,
R144). -/
def statusKind (e : Byte) : ResultKind := if e = 0 then .ok else .deviceError

/-- `Interpret(e, params)` as a result: kind, flags and parameters (41_decoder.md R144). -/
def interpret (bits : ErrBits) (e : Byte) (params : List Byte) : Result :=
  { kind := statusKind e, flags := parseFlags bits e, params := params }

/-- The number a host reads for a kind (10_state.md R34). -/
def ResultKind.code : ResultKind → BitVec 4
  | .ok => 0
  | .deviceError => 1
  | .timeout => 2
  | .framing => 3
  | .malformed => 4
  | .checksum => 5
  | .encoding => 6
  | .portClosed => 7

end Sys2Proof.Machine
end

