-- ==== Sys2Proof/Machine/Operands.lean ====
section
/-! DEFINITION. Operands: values as little-endian bytes (00_scope.md R15, 20_memory.md R52), list slices, and the
operand checks that several commands share. -/

namespace Sys2Proof.Machine

/-- `le_value(l)` (00_scope.md R15). -/
def leValue : List Byte → Nat
  | [] => 0
  | b :: l => b.toNat + 256 * leValue l

/-- `le_bytes(v, w)` (00_scope.md R15). -/
def leBytes (v : Nat) : Nat → List Byte
  | 0 => []
  | w + 1 => BitVec.ofNat 8 v :: leBytes (v / 256) w

/-- `l[a .. b-1]` (00_scope.md R15). -/
def slice (l : List Byte) (a b : Nat) : List Byte := (l.take b).drop a

/-- Some id of a SYNC_WRITE is not a unicast id (42_commands.md R178). -/
def someBadEntryId (ids : List Byte) : Bool := ids.any (fun id => decide (253 < id.toNat))

/-- Some id of a SYNC_WRITE has no bytes, or not `w` of them (42_commands.md R178). -/
def someBytesMissing (ids : List Byte) (w : Nat) (data : List (Byte × List Byte)) : Bool :=
  ids.any (fun id => decide ((data.lookup id).map List.length ≠ some w))

/-- Some id of a syncWrite has no value (42_commands.md R179). -/
def someValueMissing (ids : List Byte) (values : List (Byte × Nat)) : Bool :=
  ids.any (fun id => (values.lookup id).isNone)

/-- Some value of a syncWrite does not fit in `w` bytes; values of ids not in `ids` are ignored
(42_commands.md R179). -/
def someValueTooLarge (ids : List Byte) (w : Nat) (values : List (Byte × Nat)) : Bool :=
  ids.any (fun id => decide (256 ^ w ≤ (values.lookup id).getD 0))

/-- The bytes of each id's value: `id -> le_bytes(valuesById(id), w)` (42_commands.md R179). -/
def valueBytes (ids : List Byte) (w : Nat) (values : List (Byte × Nat)) : List (Byte × List Byte) :=
  ids.map (fun id => (id, leBytes ((values.lookup id).getD 0) w))

end Sys2Proof.Machine
end

