-- ==== Sys2Proof/Machine/Ops.lean ====
section
/-! DEFINITION. The operations the rules share: the views a host has of the state, delivering a result, entering a
failure and completing a transaction, starting a transaction, accepting and evaluating replies, and the acceptance of
a command with its checks. -/

namespace Sys2Proof.Machine

/-- The outcome of every step of this machine. -/
abbrev Outcome := Host.Outcome State Fault Refusal

/-! ## Views (no side effect) -/

/-- `busy = (phase in {TX, RX_WAIT})` (10_state.md R32). -/
def State.busy (s : State) : Bool :=
  match s.phase with
  | .closed => false
  | .idle => false
  | .tx => true
  | .rxWait => true

/-- `ready = (phase in {CLOSED, IDLE})` (10_state.md R32). -/
def State.ready (s : State) : Bool :=
  match s.phase with
  | .closed => true
  | .idle => true
  | .tx => false
  | .rxWait => false

/-- `open = (phase != CLOSED)` (10_state.md R32). -/
def State.isOpen (s : State) : Bool := decide (s.phase ≠ .closed)

/-- The line-direction output `tx_en = (phase = TX)` (10_state.md R27). -/
def State.txEn (s : State) : Bool := decide (s.phase = .tx)

/-- The response timer is armed exactly during a response wait (60_exceptions.md R216). -/
def State.timerArmed (s : State) : Bool := decide (s.phase = .rxWait)

/-- The flag byte of a result, as the host reads it (10_state.md R33). -/
def State.flagByteOf (s : State) (r : Result) : Byte := flagByte s.cfg.errBit r.flags

/-! ## Results and failures -/

/-- The plain OK of a command that got no status packet (42_commands.md R155, R167, R168). -/
def okResult : Result := { kind := .ok }

/-- A failure of the line: nothing is recorded but its kind (60_exceptions.md R200). -/
def lineFailure (k : ResultKind) : Result := { kind := k }

/-- An ENCODING result with its reason (60_exceptions.md R201). -/
def encodingError (r : Reason) : Result := { kind := .encoding, reason := some r }

/-- A PORT_CLOSED result with its reason (60_exceptions.md R202). -/
def portClosedError (r : Reason) : Result := { kind := .portClosed, reason := some r }

/-- `Deliver(r)` (10_state.md R30). -/
def deliver (r : Result) (s : State) : State := { s with results := s.results ++ [r] }

/-- `Complete(r)` (42_commands.md R163). -/
def complete (r : Result) (s : State) : State :=
  { s with results := s.results ++ [r], cur := none, txq := [], rxbuf := [], phase := .idle }

/-- Entering a failure (60_exceptions.md R211): during a transaction it completes it, at the acceptance of a command
it delivers the result and changes nothing else. There is no return from a failure: the next command is accepted in
the phase left here (R212). -/
def enterFailure (r : Result) (s : State) : State :=
  match s.phase with
  | .closed => deliver r s
  | .idle => deliver r s
  | .tx => complete r s
  | .rxWait => complete r s

/-- The failure that closes the block, `io_fail` in a phase other than CLOSED (42_commands.md R162): the command in
flight gets PORT_CLOSED(IO_FAIL), then everything but the histories is cleared. -/
def closeOnIoFail (s : State) : State :=
  { s with
    results := if s.cur.isSome then s.results ++ [portClosedError .ioFail] else s.results
    phase := .closed
    port := none
    baud := none
    timeout := none
    txq := []
    rxbuf := []
    cur := none }

/-! ## Transactions -/

/-- `StartTx(txn, q)` (42_commands.md R153). -/
def startTx (txn : Txn) (q : List Byte) (s : State) : State :=
  { s with rxbuf := [], cur := some txn, txq := q, phase := .tx }

/-- `TxDone()` (42_commands.md R155). -/
def txDone (s : State) : Outcome :=
  match s.cur with
  | none => .fault .noTransaction
  | some t => if t.expect then .next { s with phase := .rxWait } else .next (complete okResult s)

/-- The result of an accepted status packet (42_commands.md R165, R172): TRANSACT gets the packet's bytes, READ its
value, or MALFORMED when the reply does not have the width asked for. -/
def statusResult (bits : ErrBits) (t : Txn) (e : Byte) (p raw : List Byte) : Result :=
  match t.cmd with
  | .transact => { interpret bits e p with raw := some raw }
  | .read =>
    if some p.length ≠ t.width then { interpret bits e p with kind := .malformed }
    else { interpret bits e p with value := some (leValue p) }
  | .ping | .write | .regWrite | .action | .reset | .syncWrite => interpret bits e p

/-- `AcceptStatus(e, p, raw)` for the transaction `t` (42_commands.md R165). -/
def acceptStatus (t : Txn) (e : Byte) (p raw : List Byte) (s : State) : State :=
  complete (statusResult s.cfg.errBit t e p raw) s

/-- `Evaluate()` with a bound on how many frames of other ids it may discard (42_commands.md R159). -/
def evaluateUpTo : Nat → State → Outcome
  | 0, s => .next s
  | n + 1, s =>
    match frameScan s.cfg s.rxbuf with
    | .frame id _ e p start stop =>
      match s.cur with
      | none => .fault .noTransaction
      | some t =>
        if id = t.id then .next (acceptStatus t e p (slice s.rxbuf start stop) s)
        else evaluateUpTo n { s with rxbuf := s.rxbuf.drop stop }
    | .ckFail _ _ => .next (enterFailure (lineFailure .checksum) s)
    | .noSync => .next (enterFailure (lineFailure .malformed) s)
    | .short _ => .next s

/-- `Evaluate()` (42_commands.md R159). Each discarded frame is at least six bytes long, so the bound is never
reached (`evaluate_eq` in Laws/Ops.lean). -/
def evaluate (s : State) : Outcome := evaluateUpTo (s.rxbuf.length + 1) s

/-! ## Accepting a command -/

/-- The first check that fails, in the listed order (60_exceptions.md R209). -/
def firstFailure : List (Bool × Reason) → Option Reason
  | [] => none
  | (failed, r) :: rest => if failed then some r else firstFailure rest

/-- Accepting a command that has the common checks (42_commands.md R151, R152): NOT_OPEN first, then the command's
own checks in order; a command presented while the block is busy is held and changes nothing (10_state.md R38). -/
def acceptCommand (checks : List (Bool × Reason)) (body : State → Outcome) (s : State) : Outcome :=
  match s.phase with
  | .closed => .next (enterFailure (portClosedError .notOpen) s)
  | .tx => .next s
  | .rxWait => .next s
  | .idle =>
    match firstFailure checks with
    | some r => .next (enterFailure (encodingError r) s)
    | none => body s

/-- The last common check, Encode, and then the start of the transaction (42_commands.md R152, R153). Every command
that comes here awaits a status packet exactly when its request does not go to the broadcast id (R164). -/
def sendRequest (cmd : TxnCmd) (op : Opcode) (id : Byte) (params : List Byte) (width : Option Nat) (s : State) :
    Outcome :=
  match encodePacket s.cfg id op params with
  | .error r => .next (enterFailure (encodingError r) s)
  | .ok q =>
    .next (startTx { cmd := cmd, id := id, instr := some op, expect := decide (id ≠ broadcastId), width := width } q s)

end Sys2Proof.Machine
end

