-- ==== Sys2Proof/Machine/Arbiter.lean ====
section
/-! DEFINITION. The arbiter at each event of the line, the timer and the port (42_commands.md R150 to R162). -/

namespace Sys2Proof.Machine

/-- `tx_accept` (42_commands.md R154): enabled only in TX with a byte to send. Where it is not enabled the line has
taken no byte, and nothing changes (R150; DEDUCED, assumption 7). -/
def onTxAccept (s : State) : Outcome :=
  match s.phase, s.txq with
  | .tx, b :: rest =>
    let sent := { s with wireOut := s.wireOut ++ [b], txq := rest }
    if rest = [] then txDone sent else .next sent
  | .tx, [] => .next s
  | .closed, _ => .next s
  | .idle, _ => .next s
  | .rxWait, _ => .next s

/-- `rx_byte(b)`: dropped in CLOSED and TX (42_commands.md R156, R157), kept as residual in IDLE (R157), evaluated in
RX_WAIT (R158). -/
def onRxByte (b : Byte) (s : State) : Outcome :=
  match s.phase with
  | .closed => .next s
  | .idle => .next { s with rxbuf := s.rxbuf ++ [b] }
  | .tx => .next s
  | .rxWait => evaluate { s with rxbuf := s.rxbuf ++ [b] }

/-- What an expiry of the response timer reports: FRAMING when a packet began and did not finish, TIMEOUT otherwise
(42_commands.md R160). -/
def expiryKind (cfg : Config) (buf : List Byte) : ResultKind :=
  match frameScan cfg buf with
  | .short true => .framing
  | .short false => .timeout
  | .frame _ _ _ _ _ _ => .timeout
  | .ckFail _ _ => .timeout
  | .noSync => .timeout

/-- `timeout` (42_commands.md R160, R161). -/
def onTimeout (s : State) : Outcome :=
  match s.phase with
  | .closed => .next s
  | .idle => .next s
  | .tx => .next s
  | .rxWait => .next (enterFailure (lineFailure (expiryKind s.cfg s.rxbuf)) s)

/-- `io_fail` (42_commands.md R162). -/
def onIoFail (s : State) : Outcome :=
  match s.phase with
  | .closed => .next s
  | .idle => .next (closeOnIoFail s)
  | .tx => .next (closeOnIoFail s)
  | .rxWait => .next (closeOnIoFail s)

end Sys2Proof.Machine
end

