-- ==== Sys2Proof/Machine/Control.lean ====
section
/-! DEFINITION. PING, ACTION and RESET: the commands without parameters (42_commands.md R169, R176, R177). -/

namespace Sys2Proof.Machine

/-- PING (42_commands.md R169). It never goes to the broadcast id, so a status packet is always awaited. -/
def execPing (id : Byte) (s : State) : Outcome :=
  acceptCommand [(decide (id = 255), .badId), (decide (id = broadcastId), .badBroadcast)]
    (sendRequest .ping .ping id [] none) s

/-- ACTION (42_commands.md R176). -/
def execAction (id : Byte) (s : State) : Outcome :=
  acceptCommand [(decide (id = 255), .badId)] (sendRequest .action .action id [] none) s

/-- RESET (42_commands.md R177): it resets a device, not the block (70_reset_and_hazards.md R232). -/
def execReset (id : Byte) (s : State) : Outcome :=
  acceptCommand [(decide (id = 255), .badId)] (sendRequest .reset .reset id [] none) s

end Sys2Proof.Machine
end

