-- ==== Sys2Proof/Machine/Register.lean ====
section
/-! DEFINITION. READ, WRITE and REG_WRITE: the accesses to one device's registers, and the value-level forms
readRegister and writeRegister (42_commands.md R170 to R175). -/

namespace Sys2Proof.Machine

/-- READ (42_commands.md R170, R171). -/
def execRead (id addr : Byte) (w : Nat) (s : State) : Outcome :=
  acceptCommand
    [(decide (id = 255), .badId), (decide (id = broadcastId), .badBroadcast),
      (decide (w < 1 ∨ s.cfg.maxParams < w), .badWidth)]
    (sendRequest .read .read id [addr, BitVec.ofNat 8 w] (some w)) s

/-- What WRITE and REG_WRITE share (42_commands.md R173, R175). -/
def writeRequest (cmd : TxnCmd) (op : Opcode) (id addr : Byte) (data : List Byte) (s : State) : Outcome :=
  acceptCommand [(decide (id = 255), .badId), (decide (data = []), .badShape)]
    (sendRequest cmd op id (addr :: data) none) s

/-- WRITE (42_commands.md R173). -/
def execWrite (id addr : Byte) (data : List Byte) (s : State) : Outcome :=
  writeRequest .write .write id addr data s

/-- REG_WRITE (42_commands.md R175). -/
def execRegWrite (id addr : Byte) (data : List Byte) (s : State) : Outcome :=
  writeRequest .regWrite .regWrite id addr data s

/-- readRegister is READ (42_commands.md R171). -/
def execReadRegister (id addr : Byte) (w : Nat) (s : State) : Outcome := execRead id addr w s

/-- writeRegister (42_commands.md R174): its own checks, then WRITE of the value's bytes with every check of WRITE. -/
def execWriteRegister (id addr : Byte) (v w : Nat) (s : State) : Outcome :=
  acceptCommand [(decide (id = 255), .badId), (decide (w < 1), .badWidth), (decide (256 ^ w ≤ v), .valueRange)]
    (execWrite id addr (leBytes v w)) s

end Sys2Proof.Machine
end

