-- ==== Sys2Proof/Machine/Sync.lean ====
section
/-! DEFINITION. SYNC_WRITE, syncWrite on values, and SYNC_READ (42_commands.md R178 to R180). -/

namespace Sys2Proof.Machine

/-- SYNC_WRITE (42_commands.md R178). It goes to the broadcast id, so no status packet is awaited. -/
def execSyncWrite (ids : List Byte) (addr : Byte) (w : Nat) (data : List (Byte × List Byte)) (s : State) : Outcome :=
  acceptCommand
    [(decide (ids = []), .emptyIds), (someBadEntryId ids, .badId), (decide (¬ ids.Nodup), .dupId),
      (decide (w < 1 ∨ 255 < w), .badWidth), (someBytesMissing ids w data, .missingValue)]
    (sendRequest .syncWrite .syncWrite broadcastId (syncParams ids addr w data) none) s

/-- syncWrite on values (42_commands.md R179): its own checks, then SYNC_WRITE of the values' bytes. -/
def execSyncWriteValues (ids : List Byte) (addr : Byte) (w : Nat) (values : List (Byte × Nat)) (s : State) : Outcome :=
  acceptCommand
    [(decide (ids = []), .emptyIds), (someBadEntryId ids, .badId), (decide (¬ ids.Nodup), .dupId),
      (decide (w < 1 ∨ 255 < w), .badWidth), (someValueMissing ids values, .missingValue),
      (someValueTooLarge ids w values, .valueRange)]
    (execSyncWrite ids addr w (valueBytes ids w values)) s

/-- SYNC_READ (42_commands.md R180). The common checks come first, as for every command but OPEN and CLOSE (R152);
past them the spec refuses the command, because no source gives it a meaning (60_exceptions.md R203; DEDUCED, assumption 8).
The operands are not looked at. -/
def execSyncRead (_id : Byte) (_params : List Byte) (s : State) : Outcome :=
  acceptCommand [] (fun _ => .refused .syncReadUnspecified) s

end Sys2Proof.Machine
end

