-- ==== Sys2Proof/Machine/Dispatch.lean ====
section
/-! DEFINITION. What executing each wire instruction does: the host command of its name is accepted. -/

namespace Sys2Proof.Machine

/-- One arm per row of the opcode table. -/
def exec (i : Instr) (s : State) : Host.Outcome State Fault Refusal :=
  match i with
  | .ping id => Sys2Proof.Machine.execPing id s
  | .read id addr w => Sys2Proof.Machine.execRead id addr w s
  | .write id addr data => Sys2Proof.Machine.execWrite id addr data s
  | .regWrite id addr data => Sys2Proof.Machine.execRegWrite id addr data s
  | .action id => Sys2Proof.Machine.execAction id s
  | .reset id => Sys2Proof.Machine.execReset id s
  | .syncRead id params => Sys2Proof.Machine.execSyncRead id params s
  | .syncWrite ids addr w data => Sys2Proof.Machine.execSyncWrite ids addr w data s

end Sys2Proof.Machine
end

