-- ==== Sys2Proof/Machine/Session.lean ====
section
/-! DEFINITION. OPEN, CLOSE and the raw TRANSACT (42_commands.md R166 to R168). -/

namespace Sys2Proof.Machine

/-- OPEN (42_commands.md R167): no common checks; held while the block is busy (10_state.md R38). -/
def execOpen (port : PortName) (baud timeout : Nat) (s : State) : Outcome :=
  match s.phase with
  | .closed =>
    .next (deliver okResult
      { s with port := some port, baud := some baud, timeout := some timeout, rxbuf := [], phase := .idle })
  | .idle => .next (enterFailure (encodingError .alreadyOpen) s)
  | .tx => .next s
  | .rxWait => .next s

/-- CLOSE (42_commands.md R168): no common checks; held while the block is busy, so it never cuts a transaction. -/
def execClose (s : State) : Outcome :=
  match s.phase with
  | .closed => .next (deliver okResult s)
  | .idle =>
    .next (deliver okResult
      { s with port := none, baud := none, timeout := none, rxbuf := [], phase := .closed })
  | .tx => .next s
  | .rxWait => .next s

/-- `q` is one whole packet: its scan finds a frame that starts at 0 and ends at `|q|` (42_commands.md R166). -/
def isWholePacket (cfg : Config) (q : List Byte) : Bool :=
  match frameScan cfg q with
  | .frame _ _ _ _ start stop => decide (start = 0) && decide (stop = q.length)
  | .ckFail _ _ => false
  | .noSync => false
  | .short _ => false

/-- TRANSACT (42_commands.md R166): the bytes are sent as they are, and the host says whether a reply is awaited. -/
def execTransact (q : List Byte) (expect : Bool) (s : State) : Outcome :=
  acceptCommand [(!isWholePacket s.cfg q, .badPacket)]
    (fun s => .next (startTx { cmd := .transact, id := q.getD 2 0, instr := none, expect := expect, width := none } q s))
    s

end Sys2Proof.Machine
end

