-- ==== Sys2Proof/Machine/Accept.lean ====
section
/-! DEFINITION. The command interface (10_state.md R38) and the taking of one event (42_commands.md R150). -/

namespace Sys2Proof.Machine

/-- Running the rule of a command (42_commands.md R151). -/
def execCommand (c : Command) (s : State) : Outcome :=
  match c with
  | .instr i => exec i s
  | .transact q expect => execTransact q expect s
  | .openPort port baud timeout => execOpen port baud timeout s
  | .closePort => execClose s
  | .readRegister id addr w => execReadRegister id addr w s
  | .writeRegister id addr v w => execWriteRegister id addr v w s
  | .syncWriteValues ids addr w values => execSyncWriteValues ids addr w values s

/-- A command is presented: accepted at once when the block is ready, otherwise held, which changes nothing but the
list of waiting commands (10_state.md R38, 42_commands.md R151). -/
def presentCommand (c : Command) (s : State) : Outcome :=
  if s.ready then execCommand c s else .next { s with held := s.held ++ [c] }

/-- The command waiting at place `k` is looked at again: accepted when the block is ready, otherwise it stays. Which
place is looked at is the environment's choice (42_commands.md R183). Where no command waits, nothing changes. -/
def reofferCommand (k : Nat) (s : State) : Outcome :=
  match s.held[k]? with
  | none => .next s
  | some c => if s.ready then execCommand c { s with held := s.held.eraseIdx k } else .next s

/-- One event taken (42_commands.md R150). -/
def takeEvent (e : Event) (s : State) : Outcome :=
  match e with
  | .cmd c => presentCommand c s
  | .reoffer k => reofferCommand k s
  | .txAccept => onTxAccept s
  | .rxByte b => onRxByte b s
  | .timeout => onTimeout s
  | .ioFail => onIoFail s

end Sys2Proof.Machine
end

