-- ==== Sys2Proof/Machine/Step.lean ====
section
/-! DEFINITION. One step, and how the opcode table's bits become the next command. -/

namespace Sys2Proof.Machine

/-- One step takes the next event the environment offers (00_scope.md R7); where it offers none, nothing changes
(DESIGN CHOICE, assumption 5). -/
def step (s : State) : Host.Outcome State Fault Refusal :=
  match s.events with
  | [] => .next s
  | e :: rest => takeEvent e { s with events := rest }

/-- The state in which the host presents, as the very next event, the instruction that the given bits stand for
under the state's own configuration; bits that stand for none present nothing (DESIGN CHOICE, assumptions 11, 12). In a ready state the
next step runs it; a busy block holds it (10_state.md R38). -/
def State.withFetchWord (s : State) (nbits w : Nat) : State :=
  match decodeTableWordFor s.cfg nbits w with
  | some i => { s with events := .cmd (.instr i) :: s.events }
  | none => s

end Sys2Proof.Machine
end

