-- ==== Sys2Proof/Safety.lean ====
section
/-! DEFINITION. What a safe state of the block is, in the terms claims use: the invariants the rules state, and the
number of results the block owes. -/

namespace Sys2Proof

/-- A scan that leaves the outcome open: more bytes may still decide it (41_decoder.md R120). -/
def Scan.waits : Scan → Bool
  | .short _ => true
  | .frame _ _ _ _ _ _ => false
  | .ckFail _ _ => false
  | .noSync => false

end Sys2Proof

namespace Sys2Proof.Machine

/-- What 42_commands.md R164 and the `txn` of each command rule say of a transaction record: a typed command awaits a
status packet exactly when its request does not go to the broadcast id, only TRANSACT has no wire instruction, and
only READ has a width. -/
def Txn.legal (t : Txn) : Bool :=
  match t.cmd with
  | .transact => decide (t.instr = none) && decide (t.width = none)
  | .read => decide (t.instr = some .read) && t.width.isSome && t.expect && decide (t.id ≠ broadcastId)
  | .ping => decide (t.instr = some .ping) && decide (t.width = none) && t.expect && decide (t.id ≠ broadcastId)
  | .write => decide (t.instr = some .write) && decide (t.width = none)
      && decide (t.expect = decide (t.id ≠ broadcastId))
  | .regWrite => decide (t.instr = some .regWrite) && decide (t.width = none)
      && decide (t.expect = decide (t.id ≠ broadcastId))
  | .action => decide (t.instr = some .action) && decide (t.width = none)
      && decide (t.expect = decide (t.id ≠ broadcastId))
  | .reset => decide (t.instr = some .reset) && decide (t.width = none)
      && decide (t.expect = decide (t.id ≠ broadcastId))
  | .syncWrite => decide (t.instr = some .syncWrite) && decide (t.width = none) && !t.expect
      && decide (t.id = broadcastId)

/-- The invariant of the block. -/
structure State.Inv (s : State) : Prop where
  /-- The configuration arguments are legal (00_scope.md R10, R12). -/
  cfgWf : s.cfg.wf = true
  /-- `phase in {TX, RX_WAIT}` if and only if `cur` is not `none` (10_state.md R22). -/
  busyIffCur : s.busy = s.cur.isSome
  /-- The transmit queue is empty whenever the phase is not TX, and holds a byte in TX (10_state.md R24,
  42_commands.md R154). -/
  txqIffTx : s.txq ≠ [] ↔ s.phase = .tx
  /-- The transmit queue is at most MAX_PACKET_BYTES long (10_state.md R24). -/
  txqBound : s.txq.length ≤ s.cfg.maxPacketBytes
  /-- A configuration is latched exactly while a port is open (10_state.md R23, 42_commands.md R162, R167, R168). -/
  portIffOpen : s.port.isSome = s.isOpen ∧ s.baud.isSome = s.isOpen ∧ s.timeout.isSome = s.isOpen
  /-- Bytes are received only in IDLE and RX_WAIT (42_commands.md R156, R157, R158). -/
  rxbufEmpty : s.phase = .closed ∨ s.phase = .tx → s.rxbuf = []
  /-- The record of the transaction in flight is one a command rule can have made. -/
  curLegal : ∀ t, s.cur = some t → t.legal = true
  /-- In a response wait a status packet is awaited and the scan of the buffer still waits (42_commands.md R155,
  R160). -/
  waitOpen : s.phase = .rxWait → (∃ t, s.cur = some t ∧ t.expect = true) ∧ (frameScan s.cfg s.rxbuf).waits = true

/-- `k` steps of the machine, stopping at the first fault or refusal. -/
def run (k : Nat) (s : State) : Outcome := Host.Core.run core k s

/-- The results delivered and the one owed to the command in flight (10_state.md R30). -/
def State.answered (s : State) : Nat := s.results.length + (if s.cur.isSome then 1 else 0)

end Sys2Proof.Machine
end

