-- ==== Sys2Proof/Laws/State.lean ====
section
/-! SUPPORT. One lemma per field per update of the state, and the shape of each failure by phase. -/

namespace Sys2Proof.Machine

variable (s : State) (r : Result) (t : Txn) (q : List Byte) (cfg : Config)

/-! `deliver` writes `results` alone (10_state.md R30). -/

@[simp] theorem deliver_cfg : (deliver r s).cfg = s.cfg := rfl
@[simp] theorem deliver_phase : (deliver r s).phase = s.phase := rfl
@[simp] theorem deliver_port : (deliver r s).port = s.port := rfl
@[simp] theorem deliver_baud : (deliver r s).baud = s.baud := rfl
@[simp] theorem deliver_timeout : (deliver r s).timeout = s.timeout := rfl
@[simp] theorem deliver_txq : (deliver r s).txq = s.txq := rfl
@[simp] theorem deliver_rxbuf : (deliver r s).rxbuf = s.rxbuf := rfl
@[simp] theorem deliver_cur : (deliver r s).cur = s.cur := rfl
@[simp] theorem deliver_wireOut : (deliver r s).wireOut = s.wireOut := rfl
@[simp] theorem deliver_results : (deliver r s).results = s.results ++ [r] := rfl
@[simp] theorem deliver_held : (deliver r s).held = s.held := rfl
@[simp] theorem deliver_events : (deliver r s).events = s.events := rfl

/-! `complete` (42_commands.md R163). -/

@[simp] theorem complete_cfg : (complete r s).cfg = s.cfg := rfl
@[simp] theorem complete_phase : (complete r s).phase = .idle := rfl
@[simp] theorem complete_port : (complete r s).port = s.port := rfl
@[simp] theorem complete_baud : (complete r s).baud = s.baud := rfl
@[simp] theorem complete_timeout : (complete r s).timeout = s.timeout := rfl
@[simp] theorem complete_txq : (complete r s).txq = [] := rfl
@[simp] theorem complete_rxbuf : (complete r s).rxbuf = [] := rfl
@[simp] theorem complete_cur : (complete r s).cur = none := rfl
@[simp] theorem complete_wireOut : (complete r s).wireOut = s.wireOut := rfl
@[simp] theorem complete_results : (complete r s).results = s.results ++ [r] := rfl
@[simp] theorem complete_held : (complete r s).held = s.held := rfl
@[simp] theorem complete_events : (complete r s).events = s.events := rfl

/-! `startTx` (42_commands.md R153). -/

@[simp] theorem startTx_cfg : (startTx t q s).cfg = s.cfg := rfl
@[simp] theorem startTx_phase : (startTx t q s).phase = .tx := rfl
@[simp] theorem startTx_port : (startTx t q s).port = s.port := rfl
@[simp] theorem startTx_baud : (startTx t q s).baud = s.baud := rfl
@[simp] theorem startTx_timeout : (startTx t q s).timeout = s.timeout := rfl
@[simp] theorem startTx_txq : (startTx t q s).txq = q := rfl
@[simp] theorem startTx_rxbuf : (startTx t q s).rxbuf = [] := rfl
@[simp] theorem startTx_cur : (startTx t q s).cur = some t := rfl
@[simp] theorem startTx_wireOut : (startTx t q s).wireOut = s.wireOut := rfl
@[simp] theorem startTx_results : (startTx t q s).results = s.results := rfl
@[simp] theorem startTx_held : (startTx t q s).held = s.held := rfl
@[simp] theorem startTx_events : (startTx t q s).events = s.events := rfl

/-! `closeOnIoFail` (42_commands.md R162). -/

@[simp] theorem closeOnIoFail_cfg : (closeOnIoFail s).cfg = s.cfg := rfl
@[simp] theorem closeOnIoFail_phase : (closeOnIoFail s).phase = .closed := rfl
@[simp] theorem closeOnIoFail_port : (closeOnIoFail s).port = none := rfl
@[simp] theorem closeOnIoFail_baud : (closeOnIoFail s).baud = none := rfl
@[simp] theorem closeOnIoFail_timeout : (closeOnIoFail s).timeout = none := rfl
@[simp] theorem closeOnIoFail_txq : (closeOnIoFail s).txq = [] := rfl
@[simp] theorem closeOnIoFail_rxbuf : (closeOnIoFail s).rxbuf = [] := rfl
@[simp] theorem closeOnIoFail_cur : (closeOnIoFail s).cur = none := rfl
@[simp] theorem closeOnIoFail_wireOut : (closeOnIoFail s).wireOut = s.wireOut := rfl
@[simp] theorem closeOnIoFail_results : (closeOnIoFail s).results = if s.cur.isSome then s.results ++ [portClosedError .ioFail] else s.results := rfl
@[simp] theorem closeOnIoFail_held : (closeOnIoFail s).held = s.held := rfl
@[simp] theorem closeOnIoFail_events : (closeOnIoFail s).events = s.events := rfl

/-! `State.resetWith` (10_state.md R37). -/

@[simp] theorem resetWith_cfg : (State.resetWith cfg).cfg = cfg := rfl
@[simp] theorem resetWith_phase : (State.resetWith cfg).phase = .closed := rfl
@[simp] theorem resetWith_port : (State.resetWith cfg).port = none := rfl
@[simp] theorem resetWith_baud : (State.resetWith cfg).baud = none := rfl
@[simp] theorem resetWith_timeout : (State.resetWith cfg).timeout = none := rfl
@[simp] theorem resetWith_txq : (State.resetWith cfg).txq = [] := rfl
@[simp] theorem resetWith_rxbuf : (State.resetWith cfg).rxbuf = [] := rfl
@[simp] theorem resetWith_cur : (State.resetWith cfg).cur = none := rfl
@[simp] theorem resetWith_wireOut : (State.resetWith cfg).wireOut = [] := rfl
@[simp] theorem resetWith_results : (State.resetWith cfg).results = [] := rfl
@[simp] theorem resetWith_held : (State.resetWith cfg).held = [] := rfl
@[simp] theorem resetWith_events : (State.resetWith cfg).events = [] := rfl

/-! A failure at the acceptance of a command, and one during a transaction (60_exceptions.md R211). -/

variable {s}

theorem enterFailure_of_ready (h : s.ready = true) : enterFailure r s = deliver r s := by
  unfold State.ready at h
  unfold enterFailure
  split at h <;> simp_all

theorem enterFailure_of_busy (h : s.busy = true) : enterFailure r s = complete r s := by
  unfold State.busy at h
  unfold enterFailure
  split at h <;> simp_all

theorem enterFailure_closed (h : s.phase = .closed) : enterFailure r s = deliver r s := by
  simp [enterFailure, h]

theorem enterFailure_idle (h : s.phase = .idle) : enterFailure r s = deliver r s := by
  simp [enterFailure, h]

theorem enterFailure_rxWait (h : s.phase = .rxWait) : enterFailure r s = complete r s := by
  simp [enterFailure, h]

/-! The status view (10_state.md R32). -/

theorem ready_iff : s.ready = true ↔ s.phase = .closed ∨ s.phase = .idle := by
  unfold State.ready
  split <;> simp_all

theorem busy_iff : s.busy = true ↔ s.phase = .tx ∨ s.phase = .rxWait := by
  unfold State.busy
  split <;> simp_all

theorem busy_eq_not_ready : s.busy = !s.ready := by
  unfold State.busy State.ready
  split <;> simp_all

theorem isOpen_iff : s.isOpen = true ↔ s.phase ≠ .closed := by simp [State.isOpen]

end Sys2Proof.Machine
end

