-- ==== Sys2Proof/Machine/Scan.lean ====
section
/-! DEFINITION. The scan program, a host program over the block (42_commands.md R190): it presents one PING at a time
and reads the result of each before the next. It is no state of the block (10_state.md R36; DEDUCED, assumption 18).
First what it does with its results, then the program running on the block (R191). -/

namespace Sys2Proof.Machine

/-- What a scan returns (42_commands.md R190). Both sets are listed in the ascending order of probing. -/
structure BusSnapshot where
  present : List Byte := []
  faulted : List (Byte × ResultKind) := []
deriving DecidableEq, Repr

/-- A scan under way: the ids still to probe, what was found, and the failure it stopped on, if any. -/
structure ScanRun where
  todo : List Byte
  found : BusSnapshot := {}
  stopped : Option Result := none
deriving DecidableEq, Repr

/-- The ids `lo .. hi` in ascending order. -/
def scanIds (lo hi : Nat) : List Byte := (List.range' lo (hi + 1 - lo)).map (fun n => BitVec.ofNat 8 n)

/-- A scan before its first PING. -/
def startScan (lo hi : Nat) : ScanRun := { todo := scanIds lo hi }

/-- The command a scan presents next; none when it has returned. -/
def ScanRun.next (r : ScanRun) : Option Command :=
  match r.stopped, r.todo with
  | none, id :: _ => some (.instr (.ping id))
  | none, [] => none
  | some _, _ => none

/-- What one PING result adds to the snapshot; `none` when the scan stops on it (42_commands.md R190). -/
def probeResult (id : Byte) (r : Result) (b : BusSnapshot) : Option BusSnapshot :=
  match r.kind with
  | .ok => some { b with present := b.present ++ [id] }
  | .deviceError => some { b with present := b.present ++ [id] }
  | .timeout => some b
  | .framing => some { b with faulted := b.faulted ++ [(id, r.kind)] }
  | .malformed => some { b with faulted := b.faulted ++ [(id, r.kind)] }
  | .checksum => some { b with faulted := b.faulted ++ [(id, r.kind)] }
  | .encoding => none
  | .portClosed => none

/-- The scan reads the result of the PING it presented. -/
def ScanRun.read (run : ScanRun) (r : Result) : ScanRun :=
  match run.stopped, run.todo with
  | none, id :: rest =>
    match probeResult id r run.found with
    | some b => { todo := rest, found := b, stopped := none }
    | none => { run with stopped := some r }
  | none, [] => run
  | some _, _ => run

/-- What a whole scan returns when its PINGs got the results `rs` in order. -/
def scan (lo hi : Nat) (rs : List Result) : ScanRun := rs.foldl ScanRun.read (startScan lo hi)

/-! ## On the block -/

/-- A scan running on a block: the block, how far the scan is, and, while a PING is on its way, the place of its
result in the block's results. -/
structure ScanSession where
  block : State
  run : ScanRun
  awaiting : Option Nat
deriving DecidableEq, Repr

/-- A scan about to start on the block `s`. -/
def scanOn (lo hi : Nat) (s : State) : ScanSession := { block := s, run := startScan lo hi, awaiting := none }

/-- The scan has returned: it presents no further PING. -/
def ScanSession.returned (h : ScanSession) : Bool := h.awaiting.isNone && h.run.next.isNone

/-- The block takes one event while the scan waits. -/
def ScanSession.stepBlock (h : ScanSession) : Host.Outcome ScanSession Fault Refusal :=
  match Machine.step h.block with
  | .next s => .next { h with block := s }
  | .fault r => .fault r
  | .refused r => .refused r

/-- Whose turn it is between two PINGs: the scan's, to present its next PING, or the block's, to take an event. The spec
fixes no order there (42_commands.md R150, R183), and the model leaves it open: every claim is for every sequence of
turns (DESIGN CHOICE, assumption 25). -/
inductive ScanTurn where
  | scan | block
deriving DecidableEq, Repr

/-- One move of the scan on the block (42_commands.md R190, R191). With a PING on its way it reads the result once the
block has delivered it, and until then the block takes one event, whatever the turn. With none on its way and an id
still to probe, it presents the next PING if the turn is the scan's and the block is ready: as the very next event, so
that it is accepted at once (R151) and its result is the next one delivered (10_state.md R30). If the turn is the
block's, or other callers keep it busy, the block takes one event: a byte left over, a failure of the port, another
caller's command. A scan that has returned does nothing. -/
def ScanSession.advance (turn : ScanTurn) (h : ScanSession) : Host.Outcome ScanSession Fault Refusal :=
  match h.awaiting with
  | some n =>
    match h.block.results[n]? with
    | some r => .next { h with run := h.run.read r, awaiting := none }
    | none => h.stepBlock
  | none =>
    match h.run.next with
    | none => .next h
    | some c =>
      match turn, h.block.ready with
      | .scan, true =>
        .next { h with
          block := { h.block with events := .cmd c :: h.block.events }
          awaiting := some h.block.results.length }
      | .scan, false => h.stepBlock
      | .block, _ => h.stepBlock

/-- The moves of the scan under a sequence of turns, stopping where the block does. -/
def ScanSession.moves : List ScanTurn → ScanSession → Host.Outcome ScanSession Fault Refusal
  | [], h => .next h
  | turn :: turns, h =>
    match h.advance turn with
    | .next t => t.moves turns
    | .fault r => .fault r
    | .refused r => .refused r

end Sys2Proof.Machine
end

