-- ==== Sys2Proof/Certificates/Slice0/Obligations.lean ====
section
/-! DEFINITION. The statements for the provers, taken from the numbered rules of the spec. The helpers of
`Sys2Proof.Claims` write out, apart from the model's own operations, what a rule says. -/

namespace Sys2Proof.Claims

open Sys2Proof.Machine

/-- A packet by 30_encoding.md R70, R73, R74, field by field. -/
def packet (id b4 : Byte) (params : List Byte) : List Byte :=
  0xFF :: 0xFF :: id :: BitVec.ofNat 8 (params.length + 2) :: b4 :: params ++
    [BitVec.ofNat 8 (255 - (id.toNat + (params.length + 2) + b4.toNat + (params.map BitVec.toNat).sum) % 256)]

/-- The loop of 41_decoder.md R121 as its pseudocode has it, over indices; the first argument counts its turns. -/
def scanLoop (cfg : Config) (buf : List Byte) : Nat → Nat → Scan
  | 0, _ => .noSync
  | turns + 1, i =>
    if cfg.lookahead < i then .noSync
    else if buf.length < i + 2 then .short false
    else if buf.getD i 0 = 0xFF ∧ buf.getD (i + 1) 0 = 0xFF then
      if buf.length < i + 3 then .short true
      else if buf.getD (i + 2) 0 = 0xFF then scanLoop cfg buf turns (i + 1)
      else if buf.length < i + 4 then .short true
      else
        let len := (buf.getD (i + 3) 0).toNat
        if len < 2 ∨ cfg.maxPacketBytes < len + 4 then scanLoop cfg buf turns (i + 1)
        else if buf.length < i + 4 + len then .short true
        else if buf.getD (i + 3 + len) 0 ≠ checksum (slice buf (i + 2) (i + 3 + len)) then .ckFail i (i + 4 + len)
        else .frame (buf.getD (i + 2) 0) (buf.getD (i + 3) 0) (buf.getD (i + 4) 0)
          (slice buf (i + 5) (i + 3 + len)) i (i + 4 + len)
    else scanLoop cfg buf turns (i + 1)

/-- `s` with one more result and nothing else changed. -/
def answer (r : Result) (s : State) : State := { s with results := s.results ++ [r] }

/-- `s` with the result ENCODING(reason) and nothing else changed (60_exceptions.md R201). -/
def rejected (reason : Reason) (s : State) : State := answer { kind := .encoding, reason := some reason } s

/-- `s` with the request `q` of the transaction `t` enqueued (42_commands.md R153). -/
def sending (t : Txn) (q : List Byte) (s : State) : State :=
  { s with rxbuf := [], cur := some t, txq := q, phase := .tx }

/-- `s` with its transaction completed with the result `r` (42_commands.md R163). -/
def finished (r : Result) (s : State) : State :=
  { s with results := s.results ++ [r], cur := none, txq := [], rxbuf := [], phase := .idle }

/-- The result of an accepted status packet (42_commands.md R165). -/
def statusAnswer (cfg : Config) (t : Txn) (e : Byte) (p raw : List Byte) : Result :=
  let kind := if e = 0 then ResultKind.ok else ResultKind.deviceError
  let flags := parseFlags cfg.errBit e
  if t.cmd = .transact then { kind := kind, flags := flags, params := p, raw := some raw }
  else if t.cmd = .read then
    if t.width = some p.length then { kind := kind, flags := flags, params := p, value := some (leValue p) }
    else { kind := .malformed, flags := flags, params := p }
  else { kind := kind, flags := flags, params := p }

/-- The command the next step accepts, if it accepts one (10_state.md R38, 42_commands.md R151). -/
def acceptedNext (s : State) : Option Command :=
  if s.ready then
    match s.events with
    | .cmd c :: _ => some c
    | .reoffer k :: _ => s.held[k]?
    | _ => none
  else none

/-- The configuration OPEN latched, taken out of a state (10_state.md R23). -/
def withoutPort (s : State) : State := { s with port := none, baud := none, timeout := none }

/-- A view of the next state, where a step answers one. -/
def viewNext (f : State → State) : Outcome → Outcome
  | .next s => .next (f s)
  | .fault r => .fault r
  | .refused r => .refused r

/-- The transaction record of a typed command (42_commands.md R164, R169 to R178). -/
def typedTxn (cmd : TxnCmd) (op : Opcode) (id : Byte) : Txn :=
  { cmd := cmd, id := id, instr := some op, expect := decide (id ≠ 254), width := none }

/-- The ids of a SYNC_WRITE pass its checks: at least one, all unicast, no two equal (42_commands.md R178). -/
def goodIds (ids : List Byte) : Prop := ids ≠ [] ∧ (∀ id ∈ ids, id.toNat ≤ 253) ∧ ids.Nodup

/-- Every id has exactly `w` bytes (42_commands.md R178). -/
def allBytesGiven (ids : List Byte) (w : Nat) (data : List (Byte × List Byte)) : Prop :=
  ∀ id ∈ ids, ∃ bytes, data.lookup id = some bytes ∧ bytes.length = w

end Sys2Proof.Claims

open Sys2Proof Sys2Proof.Machine Sys2Proof.Claims

/-! ## Packets -/

/-- Words written out from the encodings of 30_encoding.md R70 to R85 under the default profile (the packets of
40_framer.md R110) decode to the instructions they stand for. The default codes are presumed (PRESUMED, assumption 2). -/
def Obligations.WrittenPacketsDecode : Prop :=
  decode Config.standard [0xFF, 0xFF, 0x01, 0x02, 0x01, 0xFB] = .ok (.ping 1) ∧
  decode Config.standard [0xFF, 0xFF, 0x01, 0x04, 0x02, 0x38, 0x02, 0xBE] = .ok (.read 1 0x38 2) ∧
  decode Config.standard [0xFF, 0xFF, 0x01, 0x05, 0x03, 0x2A, 0x00, 0x08, 0xC4] = .ok (.write 1 0x2A [0x00, 0x08]) ∧
  decode Config.standard [0xFF, 0xFF, 0x01, 0x05, 0x04, 0x2A, 0xE8, 0x03, 0xE0]
    = .ok (.regWrite 1 0x2A [0xE8, 0x03]) ∧
  decode Config.standard [0xFF, 0xFF, 0xFE, 0x02, 0x05, 0xFA] = .ok (.action 254) ∧
  decode Config.standard [0xFF, 0xFF, 0x01, 0x02, 0x06, 0xF6] = .ok (.reset 1) ∧
  decode Config.standard [0xFF, 0xFF, 0xFE, 0x06, 0x82, 0x38, 0x02, 0x01, 0x02, 0x3C]
    = .ok (.syncRead 254 [0x38, 0x02, 0x01, 0x02]) ∧
  decode Config.standard [0xFF, 0xFF, 0xFE, 0x0A, 0x83, 0x2A, 0x02, 0x03, 0x64, 0x00, 0x07, 0xC8, 0x00, 0x12]
    = .ok (.syncWrite [3, 7] 0x2A 2 [(3, [0x64, 0x00]), (7, [0xC8, 0x00])])

/-- Every well-formed instruction has a packet, and that packet, whatever follows it, decodes to the instruction
(the round trip of 41_decoder.md R133, which the spec marks as derived), for all eight instructions, every operand the
encoding admits and every legal configuration. -/
def Obligations.DecodeOfEncodeGivesTheInstruction : Prop :=
  ∀ (cfg : Config) (i : Instr) (trailing : List Byte), cfg.wf = true → i.wf cfg = true →
    ∃ q, encode cfg i = .ok q ∧ decode cfg (q ++ trailing) = .ok i

/-- R101, R106: the packet Encode returns, byte by byte, its checksum by the formula of R102. -/
def Obligations.FramerOutputByteByByte : Prop :=
  ∀ (cfg : Config) (id : Byte) (op : Opcode) (params q : List Byte), cfg.wf = true →
    encodePacket cfg id op params = .ok q →
    q.length = params.length + 6 ∧ q[0]? = some 0xFF ∧ q[1]? = some 0xFF ∧ q[2]? = some id ∧
    (∃ len : Byte, q[3]? = some len ∧ len.toNat = params.length + 2 ∧ 2 ≤ len.toNat ∧
      len.toNat ≤ cfg.maxPacketBytes - 4) ∧
    q[4]? = some (cfg.instrCode.code op) ∧
    (∀ k < params.length, q[5 + k]? = params[k]?) ∧
    (∃ ck : Byte, q[params.length + 5]? = some ck ∧
      ck.toNat = 255 - (id.toNat + (params.length + 2) + (cfg.instrCode.code op).toNat
        + (params.map BitVec.toNat).sum) % 256)

/-- R104, with the ceiling of R103 after it in the order of R100 and 60_exceptions.md R209: Encode raises BAD_ID
exactly for id 255, TOO_LONG exactly when another id's packet would exceed MAX_PACKET_BYTES, and otherwise returns
bytes. -/
def Obligations.FramerRefusesBadIdThenTooLong : Prop :=
  ∀ (cfg : Config) (id : Byte) (op : Opcode) (params : List Byte),
    (encodePacket cfg id op params = .error .badId ↔ id = 255) ∧
    (encodePacket cfg id op params = .error .tooLong ↔ id ≠ 255 ∧ params.length + 6 > cfg.maxPacketBytes) ∧
    ((∃ q, encodePacket cfg id op params = .ok q) ↔ id ≠ 255 ∧ params.length + 6 ≤ cfg.maxPacketBytes)

/-- R108 (which the spec derives): a byte is the checksum of a body exactly when the sum of the body and the byte is
255 modulo 256. -/
def Obligations.ChecksumMakesTheSumAllOnes : Prop :=
  ∀ (body : List Byte) (ck : Byte),
    ck = checksum body ↔ ((body.map BitVec.toNat).sum + ck.toNat) % 256 = 255

/-- R121: the frame scan is its pseudocode, index by index. -/
def Obligations.FrameScanIsItsPseudocode : Prop :=
  ∀ (cfg : Config) (buf : List Byte), frameScan cfg buf = scanLoop cfg buf (cfg.lookahead + 2) 0

/-- R122: a candidate followed by a third 0xFF is dropped and the scan moves on by one byte; so in a run of 0xFF the
marker is the last two bytes, and a frame never has id 255. -/
def Obligations.SyncMarkerEndsARun : Prop :=
  (∀ (cfg : Config) (i : Nat) (rest : List Byte), i ≤ cfg.lookahead →
    scanFrom cfg i (0xFF :: 0xFF :: 0xFF :: rest) = scanFrom cfg (i + 1) (0xFF :: 0xFF :: rest)) ∧
  (∀ (cfg : Config) (run : Nat) (id b4 : Byte) (params trailing : List Byte), cfg.wf = true →
    run ≤ cfg.lookahead → id ≠ 255 → params.length + 6 ≤ cfg.maxPacketBytes →
    frameScan cfg (List.replicate run 0xFF ++ packet id b4 params ++ trailing)
      = .frame id (BitVec.ofNat 8 (params.length + 2)) b4 params run (run + params.length + 6)) ∧
  (∀ (cfg : Config) (buf : List Byte) (id len b4 : Byte) (params : List Byte) (start stop : Nat),
    frameScan cfg buf = .frame id len b4 params start stop → id ≠ 255)

/-- R125 (which the spec derives): what a frame says of the buffer, and that its bytes are exactly the packet of its
fields, so that no two packets share their bytes. -/
def Obligations.FrameBytesAreThePacketOfItsFields : Prop :=
  ∀ (cfg : Config) (buf : List Byte) (id len b4 : Byte) (params : List Byte) (start stop : Nat), cfg.wf = true →
    frameScan cfg buf = .frame id len b4 params start stop →
    slice buf start stop = packet id b4 params ∧ stop ≤ buf.length ∧ id ≠ 255 ∧ 2 ≤ len.toNat ∧
    len.toNat + 4 ≤ cfg.maxPacketBytes ∧ params.length + 2 = len.toNat ∧ stop = start + len.toNat + 4 ∧
    start ≤ cfg.lookahead

/-- R134 (which the spec derives): noise of at most LOOKAHEAD_W bytes without two consecutive 0xFF, in front of a
packet, is skipped. -/
def Obligations.CleanNoiseIsSkipped : Prop :=
  ∀ (cfg : Config) (noise : List Byte) (id b4 : Byte) (params trailing : List Byte), cfg.wf = true →
    noise.length ≤ cfg.lookahead →
    (∀ k : Nat, ¬ (noise[k]? = some (0xFF : Byte) ∧ noise[k + 1]? = some (0xFF : Byte))) →
    id ≠ 255 → params.length + 6 ≤ cfg.maxPacketBytes →
    frameScan cfg (noise ++ packet id b4 params ++ trailing)
      = .frame id (BitVec.ofNat 8 (params.length + 2)) b4 params noise.length (noise.length + params.length + 6)

/-- R135(a) (which the spec derives): one wrong byte in the id, the instruction, a parameter or the checksum of an
encoded packet is always detected. -/
def Obligations.SingleByteCorruptionIsDetected : Prop :=
  ∀ (cfg : Config) (id : Byte) (op : Opcode) (params q : List Byte) (k : Nat) (b : Byte), cfg.wf = true →
    encodePacket cfg id op params = .ok q → k < q.length → (k = 2 ∨ 4 ≤ k) → q[k]? ≠ some b →
    (k = 2 → b ≠ 255) → decodeStatus cfg (q.set k b) = .error .checksum

/-- 10_state.md R25: the decoder looks only at the first LOOKAHEAD_W + MAX_PACKET_BYTES bytes of a buffer. -/
def Obligations.ScanLooksAtABoundedPrefix : Prop :=
  ∀ (cfg : Config) (buf : List Byte), cfg.wf = true →
    frameScan cfg buf = frameScan cfg (buf.take (cfg.lookahead + cfg.maxPacketBytes))

/-- R126: Decode, outcome by outcome of the frame scan. -/
def Obligations.DecodeReportsTheScan : Prop :=
  ∀ (cfg : Config) (buf : List Byte),
    (∀ id len e params start stop, frameScan cfg buf = .frame id len e params start stop →
      decodeStatus cfg buf = .ok { id := id, err := e, params := params }) ∧
    (∀ start stop, frameScan cfg buf = .ckFail start stop → decodeStatus cfg buf = .error .checksum) ∧
    (frameScan cfg buf = .short true → decodeStatus cfg buf = .error .framing) ∧
    (frameScan cfg buf = .short false ∨ frameScan cfg buf = .noSync → decodeStatus cfg buf = .error .malformed)

/-! ## The instruction decoder -/

/-- R130: the instruction decoder inverts INSTR_CODE, and is ILLEGAL exactly on the bytes that are no code; where
INSTR_CODE is the profile the rule calls default, those are 0x00, 0x07 to 0x81 and 0x84 to 0xFF. -/
def Obligations.InstructionByteDecodesToItsInstruction : Prop :=
  (∀ (cfg : Config) (b : Byte) (op : Opcode), cfg.wf = true →
    (decodeInstr cfg b = some op ↔ cfg.instrCode.code op = b)) ∧
  (∀ (cfg : Config) (b : Byte), decodeInstr cfg b = none ↔ ∀ op, cfg.instrCode.code op ≠ b) ∧
  (∀ (cfg : Config) (b : Byte),
    cfg.instrCode = { ping := 0x01, read := 0x02, write := 0x03, regWrite := 0x04, action := 0x05, reset := 0x06,
                      syncRead := 0x82, syncWrite := 0x83 } →
    (decodeInstr cfg b = none ↔ b.toNat = 0 ∨ (0x07 ≤ b.toNat ∧ b.toNat ≤ 0x81) ∨ 0x84 ≤ b.toNat) ∧
    (decodeInstr cfg b = some .syncRead ↔ b = 0x82) ∧ (decodeInstr cfg b = some .syncWrite ↔ b = 0x83))

/-- R77 to R85: ShapeOK is true exactly of the parameter blocks that have the shape of their instruction's rule. -/
def Obligations.ShapeCheckIsTheShapesOfTheRules : Prop :=
  ∀ p : List Byte,
    (shapeOk .ping p = true ↔ p = []) ∧ (shapeOk .action p = true ↔ p = []) ∧ (shapeOk .reset p = true ↔ p = []) ∧
    (shapeOk .read p = true ↔ ∃ addr w : Byte, p = [addr, w] ∧ 1 ≤ w.toNat) ∧
    (shapeOk .write p = true ↔ ∃ (addr : Byte) (data : List Byte), p = addr :: data ∧ data ≠ []) ∧
    (shapeOk .regWrite p = true ↔ ∃ (addr : Byte) (data : List Byte), p = addr :: data ∧ data ≠ []) ∧
    shapeOk .syncRead p = true ∧
    (shapeOk .syncWrite p = true ↔
      ∃ (addr w : Byte) (entries : List (Byte × List Byte)), 1 ≤ w.toNat ∧ goodIds (entries.map Prod.fst) ∧
        (∀ entry ∈ entries, entry.2.length = w.toNat) ∧
        p = addr :: w :: entries.flatMap (fun entry => entry.1 :: entry.2))

/-- 41_decoder.md R132: a frame is judged in the order of the rule (unknown instruction, shape, broadcast), anything else
is the failure Decode raises. The last clause is the model's own (DESIGN CHOICE, assumption 13: the model's decoder from
packets to instructions): a decoded request is one the block could have sent, it reads as an instruction with the same
id, wire instruction and parameters, the framer frames it, and its packet stands in the buffer. -/
def Obligations.DecodedRequestIsAnInstruction : Prop :=
  (∀ (cfg : Config) (buf : List Byte) (id len b : Byte) (p : List Byte) (start stop : Nat),
    frameScan cfg buf = .frame id len b p start stop →
    (decodeInstr cfg b = none → decodeRequest cfg buf = .error (.verdict .illegalInstruction)) ∧
    (∀ op, decodeInstr cfg b = some op →
      (shapeOk op p = false → decodeRequest cfg buf = .error (.verdict .badShape)) ∧
      (shapeOk op p = true →
        ((id = 254 ∧ (op = .ping ∨ op = .read ∨ op = .syncRead)) ∨ (op = .syncWrite ∧ id ≠ 254) →
          decodeRequest cfg buf = .error (.verdict .badBroadcast)) ∧
        (¬ (id = 254 ∧ (op = .ping ∨ op = .read ∨ op = .syncRead)) → ¬ (op = .syncWrite ∧ id ≠ 254) →
          decodeRequest cfg buf = .ok { id := id, op := op, params := p })))) ∧
  (∀ (cfg : Config) (buf : List Byte) (f : DecodeFailure), decodeStatus cfg buf = .error f →
    decodeRequest cfg buf = .error (.failure f)) ∧
  (∀ (cfg : Config) (buf : List Byte) (r : Request), cfg.wf = true → decodeRequest cfg buf = .ok r →
    ∃ (i : Instr) (q before after : List Byte), decode cfg buf = .ok i ∧ i.opcode = r.op ∧ i.target = r.id ∧
      i.params = r.params ∧ encode cfg i = .ok q ∧ buf = before ++ q ++ after)

/-! ## Values and flags -/

/-- 00_scope.md R15, 20_memory.md R52, 40_framer.md R111: little-endian bytes and values, and that each undoes the
other. -/
def Obligations.LittleEndianBytesAndValues : Prop :=
  (∀ v w : Nat, (leBytes v w).length = w) ∧
  (∀ v w k : Nat, k < w → (leBytes v w)[k]? = some (BitVec.ofNat 8 (v / 256 ^ k))) ∧
  (∀ l : List Byte, leValue l = ((List.range l.length).map (fun k => (l.getD k 0).toNat * 256 ^ k)).sum) ∧
  (∀ v w : Nat, leValue (leBytes v w) = v % 256 ^ w) ∧
  (∀ l : List Byte, leBytes (leValue l) l.length = l) ∧
  (∀ l : List Byte, leValue l < 256 ^ l.length)

/-- 10_state.md R33: the flag byte has a named flag's ERRBIT bit set exactly when the flag is in the set, the one bit no
named flag has exactly when RESERVED7 is, and equals the error byte the flags were parsed from, whatever ERRBIT is
(41_decoder.md R141). -/
def Obligations.FlagByteRecoversTheErrorByte : Prop :=
  ∀ bits : ErrBits, bits.toList.Nodup →
    (∀ F : FlagSet, byteBit (flagByte bits F) bits.voltage = F.voltage ∧
      byteBit (flagByte bits F) bits.angleLimit = F.angleLimit ∧ byteBit (flagByte bits F) bits.overheat = F.overheat ∧
      byteBit (flagByte bits F) bits.range = F.range ∧ byteBit (flagByte bits F) bits.checksumDev = F.checksumDev ∧
      byteBit (flagByte bits F) bits.overload = F.overload ∧
      byteBit (flagByte bits F) bits.instruction = F.instruction ∧
      ∀ k : Fin 8, k ∉ bits.toList → byteBit (flagByte bits F) k = F.reserved7) ∧
    (∀ e : Byte, flagByte bits (parseFlags bits e) = e) ∧
    (∀ F : FlagSet, parseFlags bits (flagByte bits F) = F)

/-- R140: the parser sets a named flag exactly when its ERRBIT bit is 1, and RESERVED7 exactly when the one bit not in
the image of ERRBIT is 1. -/
def Obligations.ParserReadsEachFlagsOwnBit : Prop :=
  ∀ (bits : ErrBits) (e : Byte), bits.toList.Nodup →
    ((parseFlags bits e).voltage = byteBit e bits.voltage) ∧
    ((parseFlags bits e).angleLimit = byteBit e bits.angleLimit) ∧
    ((parseFlags bits e).overheat = byteBit e bits.overheat) ∧
    ((parseFlags bits e).range = byteBit e bits.range) ∧
    ((parseFlags bits e).checksumDev = byteBit e bits.checksumDev) ∧
    ((parseFlags bits e).overload = byteBit e bits.overload) ∧
    ((parseFlags bits e).instruction = byteBit e bits.instruction) ∧
    (∃ k : Fin 8, k ∉ bits.toList ∧ (∀ j : Fin 8, j ∉ bits.toList → j = k) ∧
      (parseFlags bits e).reserved7 = byteBit e k)

/-- R142, R144: a status packet reports a device error exactly when its error byte is not zero, that is, when some flag is
set; its flags and parameters are returned either way. -/
def Obligations.DeviceErrorIffSomeFlag : Prop :=
  ∀ (bits : ErrBits) (e : Byte) (params : List Byte), bits.toList.Nodup →
    ((interpret bits e params).kind = .deviceError ↔ e ≠ 0) ∧
    ((interpret bits e params).kind = .ok ↔ e = 0) ∧
    (e ≠ 0 ↔ ∃ f : Flag, (parseFlags bits e).has f = true) ∧
    (interpret bits e params).flags = parseFlags bits e ∧ (interpret bits e params).params = params

/-- 10_state.md R34, R32, R27: the kind codes a host reads, of which 8 to 15 are never produced; and the status view and
the line-direction output as functions of the phase. -/
def Obligations.HostVisibleCodesAndViews : Prop :=
  (ResultKind.ok.code = 0 ∧ ResultKind.deviceError.code = 1 ∧ ResultKind.timeout.code = 2 ∧
    ResultKind.framing.code = 3 ∧ ResultKind.malformed.code = 4 ∧ ResultKind.checksum.code = 5 ∧
    ResultKind.encoding.code = 6 ∧ ResultKind.portClosed.code = 7 ∧ ∀ k : ResultKind, k.code.toNat < 8) ∧
  ∀ s : State,
    (s.isOpen = true ↔ s.phase ≠ .closed) ∧ (s.busy = true ↔ s.phase = .tx ∨ s.phase = .rxWait) ∧
    (s.ready = true ↔ s.phase = .closed ∨ s.phase = .idle) ∧ (s.txEn = true ↔ s.phase = .tx)

/-! ## Reset and the views -/

/-- R37: what reset leaves in every field of 10_state.md, in the line-direction output and in the status view, for
every configuration. -/
def Obligations.ResetLeavesTheListedValues : Prop :=
  ∀ cfg : Config,
    let s := State.resetWith cfg
    s.phase = .closed ∧ s.port = none ∧ s.baud = none ∧ s.timeout = none ∧ s.txq = [] ∧ s.rxbuf = [] ∧
    s.cur = none ∧ s.txEn = false ∧ s.wireOut = [] ∧ s.results = [] ∧ s.isOpen = false ∧ s.busy = false ∧
    s.ready = true

/-- The invariant holds at reset, whatever the (legal) configuration. -/
def Obligations.ResetMeetsTheBlockInvariant : Prop :=
  ∀ cfg : Config, cfg.wf = true → (State.resetWith cfg).Inv

/-! ## Accepting commands -/

/-- R151: a step runs the command presented. With a decoded instruction at the head of the events of a ready block,
`step` is `exec` of it, and the same for the other commands. The rest is the model's own: the same for a waiting command
looked at again (DESIGN CHOICE, assumption 6) and for the bits of the opcode table (DESIGN CHOICE, assumptions 11, 12);
with no event offered nothing changes (DESIGN CHOICE, assumption 5), and at a `tx_accept` that is not enabled only the
event is gone (DEDUCED, assumption 7). -/
def Obligations.StepRunsThePresentedCommand : Prop :=
  (∀ (s : State) (i : Instr) (rest : List Event), s.ready = true → s.events = .cmd (.instr i) :: rest →
    step s = exec i { s with events := rest }) ∧
  (∀ (s : State) (c : Command) (rest : List Event), s.ready = true → s.events = .cmd c :: rest →
    step s = execCommand c { s with events := rest }) ∧
  (∀ (s : State) (k : Nat) (c : Command) (rest : List Event), s.ready = true → s.events = .reoffer k :: rest →
    s.held[k]? = some c → step s = execCommand c { s with events := rest, held := s.held.eraseIdx k }) ∧
  (∀ (s : State) (nbits w : Nat) (i : Instr), s.ready = true → decodeTableWordFor s.cfg nbits w = some i →
    step (s.withFetchWord nbits w) = exec i s) ∧
  (∀ s : State, s.events = [] → step s = .next s) ∧
  (∀ (s : State) (rest : List Event), s.phase ≠ .tx ∨ s.txq = [] → s.events = .txAccept :: rest →
    step s = .next { s with events := rest })

/-- R38: a command presented while the block is busy is held: the block does not accept it, it stays among the waiting
commands (the list `held`, the model's own, DESIGN CHOICE, assumption 6), and nothing else changes. That the rule of a
command, run on a busy block, changes nothing is the model's reading (DEDUCED, assumption 20). -/
def Obligations.BusyBlockHoldsCommands : Prop :=
  (∀ (s : State) (c : Command) (rest : List Event), s.busy = true → s.events = .cmd c :: rest →
    step s = .next { s with events := rest, held := s.held ++ [c] }) ∧
  (∀ (s : State) (k : Nat) (rest : List Event), s.busy = true → s.events = .reoffer k :: rest →
    step s = .next { s with events := rest }) ∧
  (∀ (s : State) (c : Command), s.busy = true → execCommand c s = .next s)

/-- 42_commands.md R152, 60_exceptions.md R202, 70_reset_and_hazards.md R233: on a closed block every command but OPEN
and CLOSE gets PORT_CLOSED(NOT_OPEN), before any other check, and nothing but the results changes. That SYNC_READ is
among them is deduced (DEDUCED, assumption 8). -/
def Obligations.ClosedBlockAnswersNotOpen : Prop :=
  ∀ (s : State) (c : Command), s.phase = .closed →
    (∀ port baud timeout, c ≠ .openPort port baud timeout) → c ≠ .closePort →
    execCommand c s = .next (answer { kind := .portClosed, reason := some .notOpen } s)

/-- R169: PING on an open, idle block with a unicast id sends its packet and awaits a status packet. -/
def Obligations.PingSendsItsRequest : Prop :=
  ∀ (s : State) (id : Byte), s.cfg.wf = true → s.phase = .idle → id.toNat ≤ 253 →
    exec (.ping id) s = .next (sending (typedTxn .ping .ping id) (packet id s.cfg.instrCode.ping []) s)

/-- R176, R177: ACTION and RESET on an open, idle block send their packets to any id but 255, and await a status packet
exactly when the id is not the broadcast id. -/
def Obligations.ActionAndResetSendTheirRequests : Prop :=
  ∀ (s : State) (id : Byte), s.cfg.wf = true → s.phase = .idle → id.toNat ≤ 254 →
    exec (.action id) s = .next (sending (typedTxn .action .action id) (packet id s.cfg.instrCode.action []) s) ∧
    exec (.reset id) s = .next (sending (typedTxn .reset .reset id) (packet id s.cfg.instrCode.reset []) s)

/-- R170, R171: READ on an open, idle block sends its address and width and awaits that many bytes; readRegister is
READ. -/
def Obligations.ReadSendsItsRequest : Prop :=
  ∀ (s : State) (id addr : Byte) (w : Nat), s.cfg.wf = true → s.phase = .idle → id.toNat ≤ 253 → 1 ≤ w →
    w ≤ s.cfg.maxPacketBytes - 6 → 8 ≤ s.cfg.maxPacketBytes →
    exec (.read id addr w) s = .next (sending { typedTxn .read .read id with width := some w }
      (packet id s.cfg.instrCode.read [addr, BitVec.ofNat 8 w]) s) ∧
    execCommand (.readRegister id addr w) s = exec (.read id addr w) s

/-- R173, R175: WRITE and REG_WRITE on an open, idle block send their address and data, and await a status packet
exactly when the id is not the broadcast id. -/
def Obligations.WritesSendTheirRequests : Prop :=
  ∀ (s : State) (id addr : Byte) (data : List Byte), s.phase = .idle → id.toNat ≤ 254 → data ≠ [] →
    data.length + 7 ≤ s.cfg.maxPacketBytes →
    exec (.write id addr data) s
      = .next (sending (typedTxn .write .write id) (packet id s.cfg.instrCode.write (addr :: data)) s) ∧
    exec (.regWrite id addr data) s
      = .next (sending (typedTxn .regWrite .regWrite id) (packet id s.cfg.instrCode.regWrite (addr :: data)) s)

/-- R178, R84: SYNC_WRITE on an open, idle block sends exactly one packet, to the broadcast id, with one entry per id
in the order of the ids, and awaits no status packet. -/
def Obligations.SyncWriteSendsOnePacket : Prop :=
  ∀ (s : State) (ids : List Byte) (addr : Byte) (w : Nat) (data : List (Byte × List Byte)), s.phase = .idle →
    goodIds ids → 1 ≤ w → w ≤ 255 → allBytesGiven ids w data → 8 + ids.length * (w + 1) ≤ s.cfg.maxPacketBytes →
    exec (.syncWrite ids addr w data) s
      = .next (sending (typedTxn .syncWrite .syncWrite 254)
          (packet 254 s.cfg.instrCode.syncWrite
            (addr :: BitVec.ofNat 8 w :: ids.flatMap (fun id => id :: (data.lookup id).getD []))) s)

/-- R180: SYNC_READ, past the common checks (so on an open, idle block), is refused by its own name; the framer still
builds a SYNC_READ packet, and TRANSACT sends one. -/
def Obligations.SyncReadIsRefusedOnAnOpenBlock : Prop :=
  ∀ (s : State) (id : Byte) (params : List Byte), s.phase = .idle →
    exec (.syncRead id params) s = .refused .syncReadUnspecified ∧
    (s.cfg.wf = true → id ≠ 255 → params.length + 6 ≤ s.cfg.maxPacketBytes →
      encodePacket s.cfg id .syncRead params = .ok (packet id s.cfg.instrCode.syncRead params) ∧
      ∀ expect, execCommand (.transact (packet id s.cfg.instrCode.syncRead params) expect) s
        = .next (sending { cmd := .transact, id := id, instr := none, expect := expect, width := none }
            (packet id s.cfg.instrCode.syncRead params) s))

/-- R169, R176, R177: the operand checks of PING, ACTION and RESET on an open, idle block; a failed one delivers its
ENCODING reason and changes nothing else. -/
def Obligations.ControlCommandsCheckTheirId : Prop :=
  ∀ s : State, s.phase = .idle →
    exec (.ping 255) s = .next (rejected .badId s) ∧ exec (.ping 254) s = .next (rejected .badBroadcast s) ∧
    exec (.action 255) s = .next (rejected .badId s) ∧ exec (.reset 255) s = .next (rejected .badId s)

/-- R170, R173, R175, with Encode's ceiling last (60_exceptions.md R209): the checks of READ, WRITE and REG_WRITE on an
open, idle block, each under the failure of none before it. -/
def Obligations.RegisterCommandsCheckInOrder : Prop :=
  ∀ (s : State) (id addr : Byte) (w : Nat) (data : List Byte), s.phase = .idle →
    (id = 255 → exec (.read id addr w) s = .next (rejected .badId s) ∧
      exec (.write id addr data) s = .next (rejected .badId s) ∧
      exec (.regWrite id addr data) s = .next (rejected .badId s)) ∧
    (id = 254 → exec (.read id addr w) s = .next (rejected .badBroadcast s)) ∧
    (id.toNat ≤ 253 → w = 0 ∨ s.cfg.maxPacketBytes - 6 < w →
      exec (.read id addr w) s = .next (rejected .badWidth s)) ∧
    (id.toNat ≤ 253 → 1 ≤ w → w ≤ s.cfg.maxPacketBytes - 6 → s.cfg.maxPacketBytes < 8 →
      exec (.read id addr w) s = .next (rejected .tooLong s)) ∧
    (id ≠ 255 → exec (.write id addr []) s = .next (rejected .badShape s) ∧
      exec (.regWrite id addr []) s = .next (rejected .badShape s)) ∧
    (id ≠ 255 → data ≠ [] → s.cfg.maxPacketBytes < data.length + 7 →
      exec (.write id addr data) s = .next (rejected .tooLong s) ∧
      exec (.regWrite id addr data) s = .next (rejected .tooLong s))

/-- R178: the checks of SYNC_WRITE on an open, idle block, each under the failure of none before it. That each is made
for all ids before the next is made for any is the model's reading (DEDUCED, assumption 24). -/
def Obligations.SyncWriteChecksInOrder : Prop :=
  ∀ (s : State) (ids : List Byte) (addr : Byte) (w : Nat) (data : List (Byte × List Byte)), s.phase = .idle →
    (ids = [] → exec (.syncWrite ids addr w data) s = .next (rejected .emptyIds s)) ∧
    ((∃ id ∈ ids, 253 < id.toNat) → exec (.syncWrite ids addr w data) s = .next (rejected .badId s)) ∧
    ((∀ id ∈ ids, id.toNat ≤ 253) → ¬ ids.Nodup →
      exec (.syncWrite ids addr w data) s = .next (rejected .dupId s)) ∧
    (goodIds ids → w = 0 ∨ 255 < w → exec (.syncWrite ids addr w data) s = .next (rejected .badWidth s)) ∧
    (goodIds ids → 1 ≤ w → w ≤ 255 → ¬ allBytesGiven ids w data →
      exec (.syncWrite ids addr w data) s = .next (rejected .missingValue s)) ∧
    (goodIds ids → 1 ≤ w → w ≤ 255 → allBytesGiven ids w data →
      s.cfg.maxPacketBytes < 8 + ids.length * (w + 1) →
      exec (.syncWrite ids addr w data) s = .next (rejected .tooLong s))

/-- R167, R168: OPEN latches its three operands on a closed block and is ALREADY_OPEN on an open one; CLOSE releases
them, and on a closed block it only answers OK. That neither has an effect on a busy block, where it is held
(10_state.md R38), is the model's reading (DEDUCED, assumption 20). -/
def Obligations.OpenAndCloseLatchAndRelease : Prop :=
  ∀ (s : State) (port : PortName) (baud timeout : Nat),
    (s.phase = .closed → execCommand (.openPort port baud timeout) s
      = .next (answer { kind := .ok } { s with port := some port, baud := some baud, timeout := some timeout,
                                               rxbuf := [], phase := .idle })) ∧
    (s.phase = .idle → execCommand (.openPort port baud timeout) s = .next (rejected .alreadyOpen s)) ∧
    (s.phase = .idle → execCommand .closePort s
      = .next (answer { kind := .ok } { s with port := none, baud := none, timeout := none, rxbuf := [],
                                               phase := .closed })) ∧
    (s.phase = .closed → execCommand .closePort s = .next (answer { kind := .ok } s)) ∧
    (s.busy = true →
      execCommand (.openPort port baud timeout) s = .next s ∧ execCommand .closePort s = .next s)

/-- R166: TRANSACT on an open, idle block sends one whole packet as it is, to be answered by the id it is addressed
to, awaiting what the host says; anything else is BAD_PACKET. -/
def Obligations.TransactSendsOneWholePacket : Prop :=
  ∀ (s : State) (q : List Byte) (expect : Bool), s.phase = .idle →
    (∀ (id len b4 : Byte) (params : List Byte), frameScan s.cfg q = .frame id len b4 params 0 q.length →
      execCommand (.transact q expect) s
        = .next (sending { cmd := .transact, id := id, instr := none, expect := expect, width := none } q s)) ∧
    ((∀ (id len b4 : Byte) (params : List Byte), frameScan s.cfg q ≠ .frame id len b4 params 0 q.length) →
      execCommand (.transact q expect) s = .next (rejected .badPacket s))

/-- R174: writeRegister checks the id, the width and the value's range in that order, and is then WRITE of the value's
little-endian bytes. -/
def Obligations.WriteRegisterIsWriteOfTheValue : Prop :=
  ∀ (s : State) (id addr : Byte) (v w : Nat), s.phase = .idle →
    (id = 255 → execCommand (.writeRegister id addr v w) s = .next (rejected .badId s)) ∧
    (id ≠ 255 → w < 1 → execCommand (.writeRegister id addr v w) s = .next (rejected .badWidth s)) ∧
    (id ≠ 255 → 1 ≤ w → 256 ^ w ≤ v → execCommand (.writeRegister id addr v w) s = .next (rejected .valueRange s)) ∧
    (id ≠ 255 → 1 ≤ w → v < 256 ^ w →
      ∃ data : List Byte, data.length = w ∧ leValue data = v ∧
        execCommand (.writeRegister id addr v w) s = exec (.write id addr data) s)

/-- R179: syncWrite on values runs the id and width checks of SYNC_WRITE, then MISSING_VALUE, then VALUE_RANGE, and is
then SYNC_WRITE of each value's little-endian bytes. That each check is made for all ids before the next is made for any
is the model's reading (DEDUCED, assumption 24). -/
def Obligations.SyncWriteOfValuesIsSyncWriteOfBytes : Prop :=
  ∀ (s : State) (ids : List Byte) (addr : Byte) (w : Nat) (values : List (Byte × Nat)), s.phase = .idle →
    (ids = [] → execCommand (.syncWriteValues ids addr w values) s = .next (rejected .emptyIds s)) ∧
    ((∃ id ∈ ids, 253 < id.toNat) →
      execCommand (.syncWriteValues ids addr w values) s = .next (rejected .badId s)) ∧
    ((∀ id ∈ ids, id.toNat ≤ 253) → ¬ ids.Nodup →
      execCommand (.syncWriteValues ids addr w values) s = .next (rejected .dupId s)) ∧
    (goodIds ids → w = 0 ∨ 255 < w →
      execCommand (.syncWriteValues ids addr w values) s = .next (rejected .badWidth s)) ∧
    (goodIds ids → 1 ≤ w → w ≤ 255 → (∃ id ∈ ids, values.lookup id = none) →
      execCommand (.syncWriteValues ids addr w values) s = .next (rejected .missingValue s)) ∧
    (∀ value : Byte → Nat, goodIds ids → 1 ≤ w → w ≤ 255 → (∀ id ∈ ids, values.lookup id = some (value id)) →
      ((∃ id ∈ ids, 256 ^ w ≤ value id) →
        execCommand (.syncWriteValues ids addr w values) s = .next (rejected .valueRange s)) ∧
      ((∀ id ∈ ids, value id < 256 ^ w) →
        execCommand (.syncWriteValues ids addr w values) s
          = exec (.syncWrite ids addr w (ids.map (fun id => (id, leBytes (value id) w)))) s))

/-- 60_exceptions.md R211(c) and 42_commands.md R152, R153, for every command: what accepting it leaves unchanged. The
configuration, the wire, the waiting commands and the offered events stay; the results grow by at most one; a typed
instruction either starts a transaction and delivers nothing, or delivers one failure and changes nothing else. -/
def Obligations.AcceptanceFrame : Prop :=
  ∀ (s t : State) (c : Command), s.ready = true → execCommand c s = .next t →
    t.cfg = s.cfg ∧ t.wireOut = s.wireOut ∧ t.held = s.held ∧ t.events = s.events ∧
    (t.results = s.results ∨ ∃ r, t.results = s.results ++ [r]) ∧
    (∀ i : Instr, c = .instr i → t.port = s.port ∧ t.baud = s.baud ∧ t.timeout = s.timeout ∧
      ((∃ r, t = answer r s ∧ (r.kind = .encoding ∨ r.kind = .portClosed)) ∨ ∃ txn q, t = sending txn q s))

/-! ## The arbiter -/

/-- R154, R155: in TX the line takes the first queued byte; after the last one the block waits for a status packet, or,
where none is awaited, completes with OK. -/
def Obligations.TransmitterTakesTheQueueByteByByte : Prop :=
  ∀ (s : State) (t : Txn) (b : Byte) (queue : List Byte) (rest : List Event), s.phase = .tx →
    s.txq = b :: queue → s.cur = some t → s.events = .txAccept :: rest →
    (queue ≠ [] → step s = .next { s with wireOut := s.wireOut ++ [b], txq := queue, events := rest }) ∧
    (queue = [] → t.expect = true →
      step s = .next { s with wireOut := s.wireOut ++ [b], txq := [], phase := .rxWait, events := rest }) ∧
    (queue = [] → t.expect = false →
      step s = .next (finished { kind := .ok } { s with wireOut := s.wireOut ++ [b], events := rest }))

/-- R156, R157: a byte received while the block transmits or is closed is dropped; in IDLE it is kept. -/
def Obligations.BytesReceivedOutsideAWait : Prop :=
  ∀ (s : State) (b : Byte) (rest : List Event), s.events = .rxByte b :: rest →
    (s.phase = .tx → step s = .next { s with events := rest }) ∧
    (s.phase = .closed → step s = .next { s with events := rest }) ∧
    (s.phase = .idle → step s = .next { s with rxbuf := s.rxbuf ++ [b], events := rest })

/-- R161: a timeout in any phase other than RX_WAIT changes nothing; only the event is gone. -/
def Obligations.TimeoutOutsideAWaitChangesNothing : Prop :=
  ∀ (s : State) (rest : List Event), s.phase ≠ .rxWait → s.events = .timeout :: rest →
    step s = .next { s with events := rest }

/-- R158, R159: a byte received in a response wait is appended and evaluated, and evaluation follows its pseudocode,
the repeated call included. -/
def Obligations.EvaluationIsItsPseudocode : Prop :=
  (∀ (s : State) (b : Byte) (rest : List Event), s.phase = .rxWait → s.events = .rxByte b :: rest →
    step s = evaluate { s with rxbuf := s.rxbuf ++ [b], events := rest }) ∧
  (∀ (s : State) (t : Txn), s.phase = .rxWait → s.cur = some t →
    evaluate s =
      match frameScan s.cfg s.rxbuf with
      | .frame id _ e p start stop =>
        if id = t.id then .next (finished (statusAnswer s.cfg t e p (slice s.rxbuf start stop)) s)
        else evaluate { s with rxbuf := s.rxbuf.drop stop }
      | .ckFail _ _ => .next (finished { kind := .checksum } s)
      | .noSync => .next (finished { kind := .malformed } s)
      | .short _ => .next s)

/-- R165, R172: the result of the status packet a command was waiting for: for TRANSACT with the packet's bytes, for
READ with its value or, at the wrong size, MALFORMED without one, for every other command as interpreted; and the
transaction is over. -/
def Obligations.AwaitedStatusPacketIsTheResult : Prop :=
  ∀ (s : State) (t : Txn) (b : Byte) (rest : List Event) (len e : Byte) (p : List Byte) (start stop : Nat),
    s.phase = .rxWait → s.cur = some t → s.events = .rxByte b :: rest →
    frameScan s.cfg (s.rxbuf ++ [b]) = .frame t.id len e p start stop →
    ∀ kind, (kind = if e = 0 then ResultKind.ok else ResultKind.deviceError) →
    (t.cmd = .transact → step s = .next (finished
      { kind := kind, flags := parseFlags s.cfg.errBit e, params := p, raw := some (slice (s.rxbuf ++ [b]) start stop) }
      { s with events := rest })) ∧
    (t.cmd = .read → t.width = some p.length → step s = .next (finished
      { kind := kind, flags := parseFlags s.cfg.errBit e, params := p, value := some (leValue p) }
      { s with events := rest })) ∧
    (t.cmd = .read → t.width ≠ some p.length → step s = .next (finished
      { kind := .malformed, flags := parseFlags s.cfg.errBit e, params := p } { s with events := rest })) ∧
    (t.cmd ≠ .transact → t.cmd ≠ .read → step s = .next (finished
      { kind := kind, flags := parseFlags s.cfg.errBit e, params := p } { s with events := rest }))

/-- R160: the timeout in a response wait gives FRAMING when the scan of the buffer is `Short(true)` and TIMEOUT
otherwise. -/
def Obligations.ExpiryReportsFramingOrTimeout : Prop :=
  ∀ (s : State) (rest : List Event), s.phase = .rxWait → s.events = .timeout :: rest →
    (frameScan s.cfg s.rxbuf = .short true →
      step s = .next (finished { kind := .framing } { s with events := rest })) ∧
    (frameScan s.cfg s.rxbuf ≠ .short true →
      step s = .next (finished { kind := .timeout } { s with events := rest }))

/-- R162: a fatal I/O failure of an open block answers the command in flight with PORT_CLOSED(IO_FAIL), if there is one,
and closes the block; the wire history stays. On a closed block it changes nothing. -/
def Obligations.IoFailureClosesTheBlock : Prop :=
  ∀ (s : State) (rest : List Event), s.events = .ioFail :: rest →
    (s.phase ≠ .closed → step s = .next { s with
      results := s.results ++ (if s.cur = none then [] else [{ kind := .portClosed, reason := some .ioFail }])
      phase := .closed
      port := none
      baud := none
      timeout := none
      txq := []
      rxbuf := []
      cur := none
      events := rest }) ∧
    (s.phase = .closed → step s = .next { s with events := rest })

/-! ## Whole-machine rules -/

/-- The invariant of the block (10_state.md R22 to R26, 42_commands.md R155, R160, R164) is kept by every step, from
every state that meets it. -/
def Obligations.EveryStepKeepsTheBlockInvariant : Prop :=
  ∀ s s' : State, s.Inv → step s = .next s' → s'.Inv

/-- 10_state.md R40, 60_exceptions.md R203: from a state that meets the invariant no step faults, and the only refusal
is that of a SYNC_READ accepted on an open, idle block. That a SYNC_READ on a closed block is answered and not refused is
the model's reading (DEDUCED, assumption 8). -/
def Obligations.SafeStatesNeverFault : Prop :=
  ∀ s : State, s.Inv →
    (∀ f, step s ≠ .fault f) ∧
    (∀ r, step s = .refused r → r = .syncReadUnspecified ∧ s.phase = .idle ∧
      ∃ id params, acceptedNext s = some (.instr (.syncRead id params)))

/-- R30: every accepted command is answered exactly once. A step that accepts a command adds one to the results
delivered and owed, any other step adds none. -/
def Obligations.EveryAcceptedCommandIsAnsweredOnce : Prop :=
  ∀ s s' : State, s.Inv → step s = .next s' →
    s'.answered = s.answered + (if (acceptedNext s).isSome then 1 else 0)

/-- R28: the wire history is appended to by `tx_accept` alone, one queued byte at a time, and never shortened; nor is
the history of results (R30), which a step extends by at most one. -/
def Obligations.HistoriesGrowByOne : Prop :=
  ∀ s s' : State, step s = .next s' →
    (s'.wireOut = s.wireOut ∨ ∃ b rest queue, s.phase = .tx ∧ s.events = .txAccept :: rest ∧
      s.txq = b :: queue ∧ s'.wireOut = s.wireOut ++ [b]) ∧
    (s'.results = s.results ∨ ∃ r, s'.results = s.results ++ [r])

/-- R22: no request byte is enqueued while a transaction is in flight: the queue only loses bytes from its front, and
the transaction stays the same until it ends. -/
def Obligations.NothingIsEnqueuedWhileBusy : Prop :=
  ∀ s s' : State, s.busy = true → step s = .next s' →
    s'.txq <:+ s.txq ∧ (s'.cur = s.cur ∨ s'.cur = none)

/-- R23: port, baud rate and timeout are written only by OPEN, CLOSE and `io_fail`; the configuration arguments by
nothing (00_scope.md R10 to R12). -/
def Obligations.OnlyOpenCloseAndFailureWriteThePort : Prop :=
  ∀ s s' : State, step s = .next s' →
    s'.cfg = s.cfg ∧
    ((s'.port = s.port ∧ s'.baud = s.baud ∧ s'.timeout = s.timeout) ∨
      (∃ rest, s.events = .ioFail :: rest) ∨ acceptedNext s = some .closePort ∨
      ∃ port baud timeout, acceptedNext s = some (.openPort port baud timeout))

/-- R23: port, baud rate and timeout are read by no rule: two states that differ in nothing else take the same step,
up to those three. -/
def Obligations.PortAndRateAreReadByNothing : Prop :=
  ∀ (s : State) (port : Option PortName) (baud timeout : Option Nat),
    viewNext withoutPort (step { s with port := port, baud := baud, timeout := timeout })
      = viewNext withoutPort (step s)

/-- R25, R35 and the source's timeout isolation: what stands in the receive buffer when a command starts a transaction
has no influence on it or on anything after it. -/
def Obligations.ResidualBytesDoNotReachATransaction : Prop :=
  ∀ (s t : State) (c : Command) (residue : List Byte), s.phase = .idle → execCommand c s = .next t →
    t.phase = .tx → execCommand c { s with rxbuf := residue } = .next t

/-- R155, R164: a typed command to the broadcast id never waits for a response; its transaction ends with OK at its last
byte. -/
def Obligations.BroadcastsNeverWait : Prop :=
  ∀ (s s' : State) (t : Txn), s.Inv → s.cur = some t → t.cmd ≠ .transact → t.id = 254 → step s = .next s' →
    s.phase = .tx ∧ s'.phase ≠ .rxWait ∧
    (s'.phase = .idle → s'.results = s.results ++ [{ kind := .ok }] ∧ s'.cur = none)

/-- R154, R155, 20_memory.md R61: a request of any length leaves as one contiguous packet. After as many `tx_accept`
events as it has bytes, exactly those bytes have been appended to the wire, and the block waits or has completed. -/
def Obligations.WholeRequestGoesOnTheWire : Prop :=
  ∀ (s : State) (t : Txn) (rest : List Event), s.phase = .tx → s.cur = some t → s.txq ≠ [] →
    s.events = List.replicate s.txq.length .txAccept ++ rest →
    run s.txq.length s =
      .next (if t.expect then
        { s with phase := .rxWait, txq := [], wireOut := s.wireOut ++ s.txq, events := rest }
      else finished { kind := .ok } { s with wireOut := s.wireOut ++ s.txq, events := rest })

/-- R158, R159, R165: a status packet arriving byte by byte in a response wait with an empty buffer. From the awaited id
it completes the command exactly at its last byte; from another id it is discarded and the wait goes on. -/
def Obligations.WholeReplyIsTakenByteByByte : Prop :=
  ∀ (s : State) (t : Txn) (id e : Byte) (p : List Byte) (rest : List Event), s.cfg.wf = true → s.phase = .rxWait →
    s.rxbuf = [] → s.cur = some t → id ≠ 255 → p.length + 6 ≤ s.cfg.maxPacketBytes →
    s.events = (packet id e p).map Event.rxByte ++ rest →
    (∀ k < p.length + 6, run k s = .next { s with
      rxbuf := (packet id e p).take k
      events := s.events.drop k }) ∧
    run (p.length + 6) s =
      .next (if id = t.id then finished (statusAnswer s.cfg t e p (packet id e p)) { s with events := rest }
        else { s with events := rest })

/-- R170 from end to end: a READ on an idle block, its eight bytes taken by the line, and a well-formed reply of the
width asked for, give one result with the reply's flags, parameters and little-endian value, whatever bytes had been
left in the buffer. -/
def Obligations.ReadTransactionReturnsTheValue : Prop :=
  ∀ (s : State) (id addr e : Byte) (p : List Byte) (rest : List Event), s.cfg.wf = true → s.phase = .idle →
    id.toNat ≤ 253 → 1 ≤ p.length → p.length ≤ s.cfg.maxPacketBytes - 6 → 8 ≤ s.cfg.maxPacketBytes →
    s.events = .cmd (.instr (.read id addr p.length)) :: List.replicate 8 .txAccept
      ++ (packet id e p).map Event.rxByte ++ rest →
    run (p.length + 15) s = .next { s with
      results := s.results ++ [{
        kind := if e = 0 then ResultKind.ok else ResultKind.deviceError
        flags := parseFlags s.cfg.errBit e
        params := p
        value := some (leValue p) }]
      wireOut := s.wireOut ++ packet id s.cfg.instrCode.read [addr, BitVec.ofNat 8 p.length]
      txq := []
      rxbuf := []
      cur := none
      events := rest }

/-! ## The scan program -/

/-- R190: a scan whose PINGs all end in a kind it goes on after probes every id of its range in ascending order, and
returns as present those that answered OK or DEVICE_ERROR and as faulted those whose reply was damaged. -/
def Obligations.ScanSortsItsProbes : Prop :=
  ∀ (lo hi : Nat) (rs : List Result), lo ≤ hi → hi ≤ 253 → rs.length = hi + 1 - lo →
    (∀ r ∈ rs, r.kind ≠ .encoding ∧ r.kind ≠ .portClosed) →
    (∀ k < rs.length, (scan lo hi (rs.take k)).next = some (.instr (.ping (BitVec.ofNat 8 (lo + k))))) ∧
    (scan lo hi rs).next = none ∧ (scan lo hi rs).stopped = none ∧
    (∀ id : Byte, id ∈ (scan lo hi rs).found.present ↔ ∃ k r, rs[k]? = some r ∧ id.toNat = lo + k ∧
      (r.kind = .ok ∨ r.kind = .deviceError)) ∧
    (∀ (id : Byte) (kind : ResultKind), (id, kind) ∈ (scan lo hi rs).found.faulted ↔
      ∃ k r, rs[k]? = some r ∧ id.toNat = lo + k ∧ r.kind = kind ∧
        (kind = .framing ∨ kind = .malformed ∨ kind = .checksum))

/-- R190: a scan stops on the first PORT_CLOSED (or any kind that is neither present, absent nor faulted), returns that
failure, and probes no further id. -/
def Obligations.ScanStopsOnAClosedPort : Prop :=
  ∀ (lo hi : Nat) (before after : List Result) (r : Result), before.length < hi + 1 - lo →
    (∀ x ∈ before, x.kind ≠ .encoding ∧ x.kind ≠ .portClosed) → (r.kind = .encoding ∨ r.kind = .portClosed) →
    (scan lo hi (before ++ r :: after)).stopped = some r ∧ (scan lo hi (before ++ r :: after)).next = none ∧
    (scan lo hi (before ++ r :: after)).found = (scan lo hi before).found
end

