-- ==== Sys2Proof/Laws/Packets.lean ====
section
/-! SUPPORT. The checksum, the frame scan on a packet, and what a frame says of its buffer (40_framer.md,
41_decoder.md). -/

namespace Sys2Proof

/-! ## Sums -/

theorem byteSum_eq_sum (l : List Byte) : byteSum l = (l.map BitVec.toNat).sum := by
  induction l with
  | nil => rfl
  | cons b l ih => simp [byteSum, ih]

@[simp] theorem byteSum_append (l m : List Byte) : byteSum (l ++ m) = byteSum l + byteSum m := by
  simp [byteSum_eq_sum]

theorem checksum_toNat (l : List Byte) : (checksum l).toNat = 255 - byteSum l % 256 := by
  simp only [checksum, BitVec.toNat_ofNat]
  omega

/-! ## Packets -/

@[simp] theorem packetBody_length (id b4 : Byte) (p : List Byte) : (packetBody id b4 p).length = p.length + 3 := by
  simp [packetBody]

@[simp] theorem packetBytes_length (id b4 : Byte) (p : List Byte) : (packetBytes id b4 p).length = p.length + 6 := by
  simp [packetBytes]

theorem packetBytes_ne_nil (id b4 : Byte) (p : List Byte) : packetBytes id b4 p ≠ [] := by simp [packetBytes]

/-- A packet as a list: marker, id, length, byte 4, then parameters and checksum. -/
theorem packetBytes_cons (id b4 : Byte) (p : List Byte) :
    packetBytes id b4 p
      = 0xFF :: 0xFF :: id :: BitVec.ofNat 8 (p.length + 2) :: b4 :: (p ++ [checksum (packetBody id b4 p)]) := by
  simp [packetBytes, packetBody]

/-- The length byte does not wrap as long as the packet is no longer than the format allows (40_framer.md R101). -/
theorem lenByte_toNat {n : Nat} (h : n ≤ 253) : (BitVec.ofNat 8 (n + 2)).toNat = n + 2 := by
  simp only [BitVec.toNat_ofNat]
  omega

/-- The configuration's bounds (00_scope.md R10). -/
theorem Config.wf_iff (c : Config) : c.wf = true ↔
    6 ≤ c.maxPacketBytes ∧ c.maxPacketBytes ≤ 259 ∧ c.instrCode.toList.Nodup ∧ c.errBit.toList.Nodup := by
  simp [Config.wf, and_assoc]

theorem Config.wf.lower {c : Config} (h : c.wf = true) : 6 ≤ c.maxPacketBytes := ((Config.wf_iff c).1 h).1

theorem Config.wf.upper {c : Config} (h : c.wf = true) : c.maxPacketBytes ≤ 259 := ((Config.wf_iff c).1 h).2.1

theorem Config.wf.codes {c : Config} (h : c.wf = true) : c.instrCode.toList.Nodup := ((Config.wf_iff c).1 h).2.2.1

theorem Config.wf.bits {c : Config} (h : c.wf = true) : c.errBit.toList.Nodup := ((Config.wf_iff c).1 h).2.2.2

/-! ## The frame scan -/

/-- One turn of the scan where no marker starts. -/
theorem scanFrom_skip {cfg : Config} {i : Nat} {b0 b1 : Byte} {rest : List Byte} (hi : i ≤ cfg.lookahead)
    (h : ¬ (b0 = 0xFF ∧ b1 = 0xFF)) :
    scanFrom cfg i (b0 :: b1 :: rest) = scanFrom cfg (i + 1) (b1 :: rest) := by
  rw [scanFrom, if_neg (by omega), if_neg h]

/-- One turn of the scan at a marker. -/
theorem scanFrom_marker {cfg : Config} {i : Nat} {rest : List Byte} (hi : i ≤ cfg.lookahead) :
    scanFrom cfg i (0xFF :: 0xFF :: rest) =
      match scanCandidate cfg i rest with
      | some r => r
      | none => scanFrom cfg (i + 1) (0xFF :: rest) := by
  cases hc : scanCandidate cfg i rest <;> simp [scanFrom, hc, Nat.not_lt.2 hi]

/-- Past the window there is no frame. -/
theorem scanFrom_past {cfg : Config} {i : Nat} (l : List Byte) (hi : cfg.lookahead < i) :
    scanFrom cfg i l = .noSync := by
  match l with
  | [] => simp [scanFrom, hi]
  | [_] => simp [scanFrom, hi]
  | _ :: _ :: _ => simp [scanFrom, hi]

theorem scanFrom_short {cfg : Config} {i : Nat} {l : List Byte} (hi : i ≤ cfg.lookahead) (h : l.length < 2) :
    scanFrom cfg i l = .short false := by
  match l with
  | [] => rw [scanFrom, if_neg (by omega)]
  | [_] => rw [scanFrom, if_neg (by omega)]
  | _ :: _ :: _ => simp at h

/-- A candidate followed by a third 0xFF is dropped (41_decoder.md R122). -/
theorem scanCandidate_third (cfg : Config) (i : Nat) (l : List Byte) : scanCandidate cfg i (0xFF :: l) = none := by
  cases l <;> rw [scanCandidate, if_pos rfl]

/-- A candidate whose packet has only an id so far waits for more (41_decoder.md R121). -/
theorem scanCandidate_id {cfg : Config} {i : Nat} {id : Byte} (h : id ≠ 0xFF) :
    scanCandidate cfg i [id] = some (.short true) := by rw [scanCandidate, if_neg h]

/-- A candidate with a plausible header and all its bytes is a frame or a checksum failure (41_decoder.md R124). -/
theorem scanCandidate_whole {cfg : Config} {i : Nat} {id len : Byte} {body : List Byte} (hid : id ≠ 0xFF)
    (h2 : 2 ≤ len.toNat) (hmax : len.toNat + 4 ≤ cfg.maxPacketBytes) (hb : len.toNat ≤ body.length) :
    scanCandidate cfg i (id :: len :: body) =
      if body.getD (len.toNat - 1) 0 ≠ checksum (id :: len :: body.take (len.toNat - 1)) then
        some (.ckFail i (i + 4 + len.toNat))
      else
        some (.frame id len (body.getD 0 0) ((body.take (len.toNat - 1)).drop 1) i (i + 4 + len.toNat)) := by
  rw [scanCandidate, if_neg hid]
  rw [if_neg (by omega), if_neg (by omega)]

/-- A whole packet at index `i` of the buffer is found there, whatever follows it (41_decoder.md R133). -/
theorem scanFrom_packet {cfg : Config} {i : Nat} {id b4 : Byte} {p : List Byte} (t : List Byte) (hcfg : cfg.wf = true)
    (hi : i ≤ cfg.lookahead) (hid : id ≠ 0xFF) (hp : p.length + 6 ≤ cfg.maxPacketBytes) :
    scanFrom cfg i (packetBytes id b4 p ++ t)
      = .frame id (BitVec.ofNat 8 (p.length + 2)) b4 p i (i + p.length + 6) := by
  have hu := Config.wf.upper hcfg
  have hlen : (BitVec.ofNat 8 (p.length + 2)).toNat = p.length + 2 := lenByte_toNat (by omega)
  rw [packetBytes_cons]
  simp only [List.cons_append]
  rw [scanFrom_marker hi, scanCandidate_whole hid (by omega) (by omega) (by simp [hlen])]
  have ht : ((b4 :: (p ++ [checksum (packetBody id b4 p)] ++ t)).take (p.length + 1)) = b4 :: p := by simp
  have hg : (b4 :: (p ++ [checksum (packetBody id b4 p)] ++ t)).getD (p.length + 1) 0
      = checksum (packetBody id b4 p) := by simp
  simp only [hlen, show p.length + 2 - 1 = p.length + 1 by omega, ht, hg]
  rw [if_neg (by simp [packetBody])]
  simp [show i + 4 + (p.length + 2) = i + p.length + 6 by omega]

/-- What a candidate that is a frame says of the bytes after its marker. -/
theorem scanCandidate_frame {cfg : Config} {i : Nat} {rest : List Byte} {id len b4 : Byte} {p : List Byte}
    {start stop : Nat} (hcfg : cfg.wf = true)
    (h : scanCandidate cfg i rest = some (.frame id len b4 p start stop)) :
    (∃ t, 0xFF :: 0xFF :: rest = packetBytes id b4 p ++ t) ∧ id ≠ 0xFF ∧ len = BitVec.ofNat 8 (p.length + 2) ∧
      p.length + 6 ≤ cfg.maxPacketBytes ∧ start = i ∧ stop = i + p.length + 6 := by
  have hu := Config.wf.upper hcfg
  match rest with
  | [] => simp [scanCandidate] at h
  | [id'] => rw [scanCandidate] at h; split at h <;> simp at h
  | id' :: len' :: body =>
    rw [scanCandidate] at h
    split at h
    · simp at h
    rename_i hid
    split at h
    · simp at h
    rename_i hlen
    split at h
    · simp at h
    rename_i hbody
    split at h
    · simp at h
    rename_i hck
    simp only [Option.some.injEq, Scan.frame.injEq] at h
    obtain ⟨rfl, rfl, rfl, rfl, rfl, rfl⟩ := h
    have h2 : 2 ≤ len'.toNat := by omega
    match body, hbody, hck with
    | [], hbody, _ => simp at hbody; omega
    | b :: more, hbody, hck =>
      have hmore : len'.toNat - 1 ≤ more.length := by simp at hbody; omega
      have hp : (((b :: more).take (len'.toNat - 1)).drop 1) = more.take (len'.toNat - 2) := by
        rw [show len'.toNat - 1 = (len'.toNat - 2) + 1 by omega]; simp
      have hpl : (more.take (len'.toNat - 2)).length = len'.toNat - 2 := by
        rw [List.length_take]; omega
      have hlb : len' = BitVec.ofNat 8 ((more.take (len'.toNat - 2)).length + 2) := by
        apply BitVec.eq_of_toNat_eq
        rw [hpl, BitVec.toNat_ofNat]
        have := len'.isLt
        omega
      rw [hp, show (b :: more).getD 0 0 = b from rfl]
      refine ⟨⟨more.drop (len'.toNat - 1), ?_⟩, hid, hlb, by omega, rfl, by omega⟩
      have hbody' : packetBody id' b (more.take (len'.toNat - 2))
          = id' :: len' :: (b :: more).take (len'.toNat - 1) := by
        rw [packetBody, ← hlb, show len'.toNat - 1 = (len'.toNat - 2) + 1 by omega]; simp
      have hck' : checksum (packetBody id' b (more.take (len'.toNat - 2))) = more.getD (len'.toNat - 2) 0 := by
        rw [hbody']
        have h3 : (b :: more).getD (len'.toNat - 1) 0 = more.getD (len'.toNat - 2) 0 := by
          rw [show len'.toNat - 1 = (len'.toNat - 2) + 1 by omega]; simp
        have := Classical.not_not.1 hck
        rw [h3] at this
        exact this.symm
      rw [packetBytes_cons, ← hlb, hck']
      have hsplit : more = more.take (len'.toNat - 2) ++ (more.getD (len'.toNat - 2) 0 :: more.drop (len'.toNat - 1)) := by
        conv_lhs => rw [← List.take_append_drop (len'.toNat - 2) more]
        congr 1
        rw [List.drop_eq_getElem_cons (by omega)]
        simp [List.getD_eq_getElem?_getD, List.getElem?_eq_getElem (show len'.toNat - 2 < more.length by omega),
          show len'.toNat - 2 + 1 = len'.toNat - 1 by omega]
      simpa using hsplit

/-- What a frame found from index `i` on says of the buffer: its bytes are the packet of its fields
(41_decoder.md R125). -/
theorem scanFrom_frame {cfg : Config} (hcfg : cfg.wf = true) {id len b4 : Byte} {p : List Byte} {start stop : Nat} :
    ∀ (l : List Byte) (i : Nat), scanFrom cfg i l = .frame id len b4 p start stop →
      (∃ a t, l = a ++ packetBytes id b4 p ++ t ∧ start = i + a.length) ∧ id ≠ 0xFF ∧
        len = BitVec.ofNat 8 (p.length + 2) ∧ p.length + 6 ≤ cfg.maxPacketBytes ∧ start ≤ cfg.lookahead ∧
        stop = start + p.length + 6 := by
  intro l
  induction l with
  | nil => intro i h; simp [scanFrom] at h; split at h <;> simp at h
  | cons b0 l ih =>
    intro i h
    by_cases hi : cfg.lookahead < i
    · simp [scanFrom_past _ hi] at h
    have hi' : i ≤ cfg.lookahead := by omega
    match l, ih, h with
    | [], _, h => simp [scanFrom, hi] at h
    | b1 :: rest, ih, h =>
      have later : scanFrom cfg (i + 1) (b1 :: rest) = .frame id len b4 p start stop →
          (∃ a t, b0 :: b1 :: rest = a ++ packetBytes id b4 p ++ t ∧ start = i + a.length) ∧ id ≠ 0xFF ∧
            len = BitVec.ofNat 8 (p.length + 2) ∧ p.length + 6 ≤ cfg.maxPacketBytes ∧ start ≤ cfg.lookahead ∧
            stop = start + p.length + 6 := by
        intro h'
        obtain ⟨⟨a, t, hl, hs⟩, hrest⟩ := ih (i + 1) h'
        exact ⟨⟨b0 :: a, t, by simp [hl], by simp; omega⟩, hrest⟩
      by_cases hm : b0 = 0xFF ∧ b1 = 0xFF
      · obtain ⟨rfl, rfl⟩ := hm
        rw [scanFrom_marker hi'] at h
        split at h
        · rename_i r hc
          subst h
          obtain ⟨⟨t, ht⟩, hid, hlen, hp, rfl, rfl⟩ := scanCandidate_frame hcfg hc
          exact ⟨⟨[], t, by simpa using ht, by simp⟩, hid, hlen, hp, hi', rfl⟩
        · exact later h
      · rw [scanFrom_skip hi' hm] at h
        exact later h

end Sys2Proof
end

