-- ==== Sys2Proof/Laws/Instructions.lean ====
section
/-! SUPPORT. The instruction decoder, the SYNC_WRITE entries, and the encoder's conditions (30_encoding.md,
40_framer.md R100, 41_decoder.md R130, R131). -/

namespace Sys2Proof

/-- A code decodes to its own instruction, since INSTR_CODE is injective. -/
theorem decodeInstr_code {cfg : Config} (h : cfg.wf = true) (op : Opcode) :
    decodeInstr cfg (cfg.instrCode.code op) = some op := by
  have hn := Config.wf.codes h
  simp only [InstrCodes.toList, List.nodup_cons, List.mem_cons, List.not_mem_nil, or_false, not_or] at hn
  cases op <;> simp [decodeInstr, Opcode.all, List.find?_cons, InstrCodes.code] <;> grind

/-- Whatever the instruction decoder reads has that byte as its code. -/
theorem code_of_decodeInstr {cfg : Config} {b : Byte} {op : Opcode} (h : decodeInstr cfg b = some op) :
    cfg.instrCode.code op = b := by
  have := List.find?_some h
  simpa using this

/-! ## SYNC_WRITE entries -/

/-- Entries as bytes: each id followed by its data (30_encoding.md R84). -/
def entryBytes (es : List (Byte × List Byte)) : List Byte := es.flatMap (fun e => e.1 :: e.2)

@[simp] theorem entryBytes_nil : entryBytes [] = [] := rfl

@[simp] theorem entryBytes_cons (e : Byte × List Byte) (es : List (Byte × List Byte)) :
    entryBytes (e :: es) = e.1 :: (e.2 ++ entryBytes es) := by simp [entryBytes]

theorem entryBytes_length {w : Nat} {es : List (Byte × List Byte)} (h : ∀ e ∈ es, e.2.length = w) :
    (entryBytes es).length = es.length * (w + 1) := by
  induction es with
  | nil => simp
  | cons e es ih =>
    simp only [List.mem_cons, forall_eq_or_imp] at h
    simp [h.1, ih h.2, Nat.succ_mul]
    omega

/-- Cutting the bytes of entries gives the entries back. -/
theorem splitEntries_entryBytes {w : Nat} {es : List (Byte × List Byte)} (h : ∀ e ∈ es, e.2.length = w) :
    ∀ n, es.length ≤ n → splitEntries w n (entryBytes es) = some es := by
  induction es with
  | nil => intro n _; cases n <;> rfl
  | cons e es ih =>
    intro n hn
    simp only [List.mem_cons, forall_eq_or_imp] at h
    match n, hn with
    | n + 1, hn =>
      rw [entryBytes_cons, splitEntries, if_neg (by simp [h.1])]
      have h1 : (e.2 ++ entryBytes es).take w = e.2 := by rw [← h.1]; simp
      have h2 : (e.2 ++ entryBytes es).drop w = entryBytes es := by rw [← h.1]; simp
      rw [h1, h2, ih h.2 n (by simpa using hn)]
      rfl

/-- Entries that were cut out have the width asked for, and their bytes are what was cut. -/
theorem splitEntries_some {w : Nat} : ∀ (n : Nat) (l : List Byte) (es : List (Byte × List Byte)),
    splitEntries w n l = some es → entryBytes es = l ∧ ∀ e ∈ es, e.2.length = w := by
  intro n
  induction n with
  | zero =>
    intro l es h
    cases l with
    | nil => simp [splitEntries] at h; subst h; simp
    | cons => simp [splitEntries] at h
  | succ n ih =>
    intro l es h
    cases l with
    | nil => simp [splitEntries] at h; subst h; simp
    | cons id more =>
      rw [splitEntries] at h
      split at h
      · simp at h
      rename_i hw
      obtain ⟨es', h', rfl⟩ := Option.map_eq_some_iff.1 h
      obtain ⟨hb, hl⟩ := ih _ _ h'
      refine ⟨by simp [hb], ?_⟩
      simp only [List.mem_cons, forall_eq_or_imp]
      exact ⟨by rw [List.length_take]; omega, hl⟩

/-- Looking up the ids of a list of entries without equal ids gives the entries back. -/
theorem flatMap_lookup_eq_entryBytes {es : List (Byte × List Byte)} (h : (es.map Prod.fst).Nodup) :
    (es.map Prod.fst).flatMap (fun id => id :: (es.lookup id).getD []) = entryBytes es := by
  induction es with
  | nil => rfl
  | cons e es ih =>
    obtain ⟨id, d⟩ := e
    simp only [List.map_cons, List.nodup_cons] at h
    simp only [List.map_cons, List.flatMap_cons, entryBytes_cons, List.lookup_cons, beq_self_eq_true,
      Option.getD_some, List.cons_append]
    rw [← ih h.2]
    congr 2
    apply List.flatMap_congr
    intro id' hid'
    have : id' ≠ id := fun he => h.1 (he ▸ hid')
    rw [show (id' == id) = false by simpa using this]

/-- The length of a SYNC_WRITE block: two bytes and `w + 1` for each id (30_encoding.md R84). -/
theorem syncParams_length {ids : List Byte} {addr : Byte} {w : Nat} {data : List (Byte × List Byte)}
    (h : ∀ id ∈ ids, ∃ bytes, data.lookup id = some bytes ∧ bytes.length = w) :
    (syncParams ids addr w data).length = 2 + ids.length * (w + 1) := by
  have : (ids.flatMap (fun id => id :: (data.lookup id).getD [])).length = ids.length * (w + 1) := by
    induction ids with
    | nil => simp
    | cons id ids ih =>
      simp only [List.mem_cons, forall_eq_or_imp] at h
      obtain ⟨⟨d, hd, hl⟩, hrest⟩ := h
      rw [List.flatMap_cons, List.length_append, ih hrest]
      simp [hd, hl, Nat.succ_mul]
      omega
  simp only [syncParams, List.length_cons, this]
  omega

/-! ## Encode -/

theorem encodePacket_ok {cfg : Config} {id : Byte} {op : Opcode} {p : List Byte} (hid : id ≠ 255)
    (hp : p.length + 6 ≤ cfg.maxPacketBytes) :
    encodePacket cfg id op p = .ok (packetBytes id (cfg.instrCode.code op) p) := by
  rw [encodePacket, if_neg hid, if_neg (by omega)]

theorem encodePacket_tooLong {cfg : Config} {id : Byte} {op : Opcode} {p : List Byte} (hid : id ≠ 255)
    (hp : cfg.maxPacketBytes < p.length + 6) : encodePacket cfg id op p = .error .tooLong := by
  rw [encodePacket, if_neg hid, if_pos hp]

/-- The conditions under which Encode returns bytes, and the bytes. -/
theorem encodePacket_eq_ok {cfg : Config} {id : Byte} {op : Opcode} {p q : List Byte}
    (h : encodePacket cfg id op p = .ok q) :
    id ≠ 255 ∧ p.length + 6 ≤ cfg.maxPacketBytes ∧ q = packetBytes id (cfg.instrCode.code op) p := by
  unfold encodePacket at h
  split at h
  · simp at h
  split at h
  · simp at h
  rename_i h1 h2
  exact ⟨h1, by omega, by simpa using h.symm⟩

/-- A well-formed instruction goes to an id other than 255 and its packet fits (40_framer.md R103, R104). -/
theorem Instr.wf_fits {cfg : Config} (hcfg : cfg.wf = true) {i : Instr} (h : i.wf cfg = true) :
    i.target ≠ 255 ∧ i.params.length + 6 ≤ cfg.maxPacketBytes := by
  have hl := Config.wf.lower hcfg
  have key : ∀ {id : Byte} {n : Nat}, n < 255 → id.toNat ≤ n → id ≠ 255 := by
    intro id n hn h he; subst he; simp at h; omega
  cases i with
  | ping id => simp [Instr.wf] at h; exact ⟨key (by omega) h, by simpa [Instr.params] using hl⟩
  | read id addr w => simp [Instr.wf] at h; exact ⟨key (by omega) h.1.1.1, by simpa [Instr.params] using h.2⟩
  | write id addr data =>
    simp [Instr.wf] at h; exact ⟨key (by omega) h.1.1, by simp only [Instr.params, List.length_cons]; omega⟩
  | regWrite id addr data =>
    simp [Instr.wf] at h; exact ⟨key (by omega) h.1.1, by simp only [Instr.params, List.length_cons]; omega⟩
  | action id => simp [Instr.wf] at h; exact ⟨key (by omega) h, by simpa [Instr.params] using hl⟩
  | reset id => simp [Instr.wf] at h; exact ⟨key (by omega) h, by simpa [Instr.params] using hl⟩
  | syncRead id p => simp [Instr.wf] at h; exact ⟨key (by omega) h.1, by simpa [Instr.params] using h.2⟩
  | syncWrite ids addr w data =>
    simp only [Instr.wf, Bool.and_eq_true, decide_eq_true_eq, List.all_eq_true] at h
    obtain ⟨⟨⟨⟨⟨⟨⟨_, _⟩, hn⟩, _⟩, _⟩, hm⟩, hd⟩, hf⟩ := h
    refine ⟨by simp [Instr.target, broadcastId], ?_⟩
    subst hm
    simp only [Instr.params, syncParams, List.length_cons]
    rw [flatMap_lookup_eq_entryBytes hn, entryBytes_length hd]
    simp at hf
    omega

end Sys2Proof
end

