-- ==== Sys2Proof/Laws/Ops.lean ====
section
/-! SUPPORT. What the shared operations can do, said once: accepting a command, sending a request, evaluating a reply,
taking an event. -/

namespace Sys2Proof.Machine

/-! ## Accepting a command -/

theorem firstFailure_cons (b : Bool) (r : Reason) (l : List (Bool × Reason)) :
    firstFailure ((b, r) :: l) = if b then some r else firstFailure l := rfl

@[simp] theorem firstFailure_nil : firstFailure [] = none := rfl

theorem acceptCommand_closed {checks : List (Bool × Reason)} {body : State → Outcome} {s : State}
    (h : s.phase = .closed) :
    acceptCommand checks body s = .next (deliver (portClosedError .notOpen) s) := by
  simp [acceptCommand, h, enterFailure]

theorem acceptCommand_busy {checks : List (Bool × Reason)} {body : State → Outcome} {s : State}
    (h : s.busy = true) : acceptCommand checks body s = .next s := by
  rcases busy_iff.1 h with h | h <;> simp [acceptCommand, h]

theorem acceptCommand_idle {checks : List (Bool × Reason)} {body : State → Outcome} {s : State}
    (h : s.phase = .idle) :
    acceptCommand checks body s =
      match firstFailure checks with
      | some r => .next (deliver (encodingError r) s)
      | none => body s := by
  cases hf : firstFailure checks <;> simp [acceptCommand, h, hf, enterFailure_idle]

/-- On an idle block, a failed check is the answer. -/
theorem acceptCommand_fail {checks : List (Bool × Reason)} {body : State → Outcome} {s : State} {r : Reason}
    (h : s.phase = .idle) (hr : firstFailure checks = some r) :
    acceptCommand checks body s = .next (deliver (encodingError r) s) := by
  rw [acceptCommand_idle h, hr]

/-- On an idle block, with every check passed, the command's own rule runs. -/
theorem acceptCommand_pass {checks : List (Bool × Reason)} {body : State → Outcome} {s : State}
    (h : s.phase = .idle) (hr : firstFailure checks = none) : acceptCommand checks body s = body s := by
  rw [acceptCommand_idle h, hr]

theorem sendRequest_ok {cmd : TxnCmd} {op : Opcode} {id : Byte} {p : List Byte} {w : Option Nat} {s : State}
    (hid : id ≠ 255) (hp : p.length + 6 ≤ s.cfg.maxPacketBytes) :
    sendRequest cmd op id p w s = .next (startTx
      { cmd := cmd, id := id, instr := some op, expect := decide (id ≠ broadcastId), width := w }
      (packetBytes id (s.cfg.instrCode.code op) p) s) := by
  rw [sendRequest, encodePacket, if_neg hid, if_neg (by omega)]

theorem sendRequest_tooLong {cmd : TxnCmd} {op : Opcode} {id : Byte} {p : List Byte} {w : Option Nat} {s : State}
    (hs : s.phase = .idle) (hid : id ≠ 255) (hp : s.cfg.maxPacketBytes < p.length + 6) :
    sendRequest cmd op id p w s = .next (deliver (encodingError .tooLong) s) := by
  rw [sendRequest, encodePacket, if_neg hid, if_pos hp]
  simp [enterFailure_idle _ hs]

/-- Everything that accepting a typed instruction on a ready block can do: deliver one failure, start one legal
transaction, or, for SYNC_READ on an open block, refuse. -/
inductive Accepted (s : State) : Instr → Outcome → Prop where
  | notOpen (i : Instr) (h : s.phase = .closed) : Accepted s i (.next (deliver (portClosedError .notOpen) s))
  | failed (i : Instr) (r : Reason) (h : s.phase = .idle) : Accepted s i (.next (deliver (encodingError r) s))
  | started (i : Instr) (t : Txn) (q : List Byte) (h : s.phase = .idle) (hq : q ≠ [])
      (hlen : q.length ≤ s.cfg.maxPacketBytes) (ht : t.legal = true) : Accepted s i (.next (startTx t q s))
  | refused (id : Byte) (p : List Byte) (h : s.phase = .idle) :
      Accepted s (.syncRead id p) (.refused .syncReadUnspecified)

/-- The transaction of a typed command is legal (42_commands.md R164). -/
theorem Accepted.of_send {s : State} {i : Instr} {cmd : TxnCmd} {op : Opcode} {id : Byte} {p : List Byte}
    {w : Option Nat} (h : s.phase = .idle)
    (ht : id ≠ 255 → Txn.legal
      { cmd := cmd, id := id, instr := some op, expect := decide (id ≠ broadcastId), width := w } = true) :
    Accepted s i (sendRequest cmd op id p w s) := by
  by_cases hid : id = 255
  · rw [sendRequest, encodePacket, if_pos hid]
    simp only [enterFailure_idle _ h]
    exact .failed i _ h
  by_cases hp : s.cfg.maxPacketBytes < p.length + 6
  · rw [sendRequest_tooLong h hid hp]
    exact .failed i _ h
  · rw [sendRequest_ok hid (by omega)]
    exact .started i _ _ h (packetBytes_ne_nil _ _ _) (by rw [packetBytes_length]; omega) (ht hid)

/-- A command with checks, given what its own rule does once they pass. -/
theorem Accepted.of_checks {s : State} {i : Instr} {checks : List (Bool × Reason)} {body : State → Outcome}
    (hr : s.ready = true)
    (hb : s.phase = .idle → firstFailure checks = none → Accepted s i (body s)) :
    Accepted s i (acceptCommand checks body s) := by
  rcases ready_iff.1 hr with h | h
  · rw [acceptCommand_closed h]; exact .notOpen i h
  · cases hf : firstFailure checks with
    | some r => rw [acceptCommand_fail h hf]; exact .failed i r h
    | none => rw [acceptCommand_pass h hf]; exact hb h hf

theorem exec_accepted {s : State} (i : Instr) (hr : s.ready = true) : Accepted s i (exec i s) := by
  cases i with
  | ping id =>
    refine .of_checks hr fun h hf => .of_send h fun _ => ?_
    have hb : id ≠ broadcastId := by
      rintro rfl
      simp [firstFailure_cons, broadcastId] at hf
    simp [Txn.legal, hb]
  | read id addr w =>
    refine .of_checks hr fun h hf => .of_send h fun _ => ?_
    have hb : id ≠ broadcastId := by
      rintro rfl
      simp [firstFailure_cons, broadcastId] at hf
    simp [Txn.legal, hb]
  | write id addr data => exact .of_checks hr fun h _ => .of_send h fun _ => by simp [Txn.legal]
  | regWrite id addr data => exact .of_checks hr fun h _ => .of_send h fun _ => by simp [Txn.legal]
  | action id => exact .of_checks hr fun h _ => .of_send h fun _ => by simp [Txn.legal]
  | reset id => exact .of_checks hr fun h _ => .of_send h fun _ => by simp [Txn.legal]
  | syncRead id p =>
    exact .of_checks (checks := []) (body := fun _ => .refused .syncReadUnspecified) hr fun h _ => .refused id p h
  | syncWrite ids addr w data =>
    exact .of_checks hr fun h _ => .of_send h fun _ => by simp [Txn.legal]

/-! ## Evaluating a reply -/

/-- The bound of `evaluateUpTo` does not matter once it exceeds the buffer's length. -/
theorem evaluateUpTo_bound (hcfg : ∀ s : State, ∀ id len b4 p start stop,
    frameScan s.cfg s.rxbuf = .frame id len b4 p start stop → 0 < stop ∧ s.rxbuf ≠ []) :
    ∀ (n m : Nat) (s : State), s.rxbuf.length < n → s.rxbuf.length < m → evaluateUpTo n s = evaluateUpTo m s := by
  intro n
  induction n with
  | zero => intro m s h; omega
  | succ n ih =>
    intro m s hn hm
    match m, hm with
    | m + 1, hm =>
      rw [evaluateUpTo, evaluateUpTo]
      cases hs : frameScan s.cfg s.rxbuf with
      | frame id len b4 p start stop =>
        simp only
        cases s.cur with
        | none => rfl
        | some t =>
          simp only
          split
          · rfl
          · obtain ⟨hpos, hne⟩ := hcfg s _ _ _ _ _ _ hs
            have hl : 0 < s.rxbuf.length := List.length_pos_iff.2 hne
            refine ih m _ ?_ ?_ <;> simp only [List.length_drop] <;> omega
      | ckFail a b => rfl
      | noSync => rfl
      | short b => rfl

/-- A frame ends past the start of a buffer that is not empty, whatever the configuration. -/
theorem frameScan_stop_pos {cfg : Config} {buf : List Byte} {id len b4 : Byte} {p : List Byte} {start stop : Nat}
    (h : frameScan cfg buf = .frame id len b4 p start stop) : 0 < stop ∧ buf ≠ [] := by
  have key : ∀ (l : List Byte) (i : Nat), scanFrom cfg i l = .frame id len b4 p start stop → 0 < stop ∧ l ≠ [] := by
    intro l
    induction l with
    | nil => intro i h; simp [scanFrom] at h; split at h <;> simp at h
    | cons b0 l ih =>
      intro i h
      refine ⟨?_, by simp⟩
      by_cases hi : cfg.lookahead < i
      · simp [scanFrom_past _ hi] at h
      match l, ih, h with
      | [], _, h => simp [scanFrom, hi] at h
      | b1 :: rest, ih, h =>
        by_cases hm : b0 = 0xFF ∧ b1 = 0xFF
        · obtain ⟨rfl, rfl⟩ := hm
          rw [scanFrom_marker (by omega)] at h
          cases hc : scanCandidate cfg i rest with
          | none => rw [hc] at h; exact (ih (i + 1) h).1
          | some r =>
            rw [hc] at h
            simp only at h
            subst h
            match rest, hc with
            | [], hc => simp [scanCandidate] at hc
            | [id'], hc => rw [scanCandidate] at hc; split at hc <;> simp at hc
            | id' :: len' :: body, hc =>
              rw [scanCandidate] at hc
              split at hc
              · simp at hc
              split at hc
              · simp at hc
              split at hc
              · simp at hc
              split at hc
              · simp at hc
              simp only [Option.some.injEq, Scan.frame.injEq] at hc
              omega
        · rw [scanFrom_skip (by omega) hm] at h
          exact (ih (i + 1) h).1
  exact key buf 0 h

/-- `Evaluate()` as its pseudocode has it, the repeated call included (42_commands.md R159). -/
theorem evaluate_eq (s : State) : evaluate s =
    match frameScan s.cfg s.rxbuf with
    | .frame id _ e p start stop =>
      match s.cur with
      | none => .fault .noTransaction
      | some t =>
        if id = t.id then .next (acceptStatus t e p (slice s.rxbuf start stop) s)
        else evaluate { s with rxbuf := s.rxbuf.drop stop }
    | .ckFail _ _ => .next (enterFailure (lineFailure .checksum) s)
    | .noSync => .next (enterFailure (lineFailure .malformed) s)
    | .short _ => .next s := by
  unfold evaluate
  rw [evaluateUpTo]
  cases hs : frameScan s.cfg s.rxbuf with
  | frame id len e p start stop =>
    simp only
    cases s.cur with
    | none => rfl
    | some t =>
      simp only
      split
      · rfl
      · obtain ⟨hpos, hne⟩ := frameScan_stop_pos hs
        have hl : 0 < s.rxbuf.length := List.length_pos_iff.2 hne
        refine evaluateUpTo_bound (fun _ _ _ _ _ _ _ h => frameScan_stop_pos h) _ _ _ ?_ ?_ <;>
          simp only [List.length_drop] <;> omega
  | ckFail a b => rfl
  | noSync => rfl
  | short b => rfl

/-- A status packet gives OK, DEVICE_ERROR or MALFORMED (42_commands.md R165, R172). -/
theorem statusResult_kind (bits : ErrBits) (t : Txn) (e : Byte) (p raw : List Byte) :
    (statusResult bits t e p raw).kind ≠ .encoding ∧ (statusResult bits t e p raw).kind ≠ .portClosed := by
  have h : (interpret bits e p).kind ≠ .encoding ∧ (interpret bits e p).kind ≠ .portClosed := by
    simp only [interpret, statusKind]
    split <;> simp
  unfold statusResult
  split
  · exact h
  · split
    · simp
    · exact h
  all_goals exact h

/-- Everything evaluating a reply in a response wait can do: keep waiting with a buffer that may have lost frames of
other ids, or complete the transaction with one result, which is no failure of acceptance or of the port. -/
inductive Evaluated (s : State) : Outcome → Prop where
  | waiting (buf : List Byte) (hbuf : buf <:+ s.rxbuf) (hw : (frameScan s.cfg buf).waits = true) :
      Evaluated s (.next { s with rxbuf := buf })
  | completed (r : Result) (hk : r.kind ≠ .encoding ∧ r.kind ≠ .portClosed) : Evaluated s (.next (complete r s))

theorem complete_with_rxbuf (r : Result) (s : State) (buf : List Byte) :
    complete r { s with rxbuf := buf } = complete r s := rfl

theorem evaluated {t : Txn} : ∀ (n : Nat) (s : State), s.rxbuf.length ≤ n → s.phase = .rxWait → s.cur = some t →
    Evaluated s (evaluate s) := by
  intro n
  induction n with
  | zero =>
    intro s hn _ _
    have : s.rxbuf = [] := List.length_eq_zero_iff.1 (by omega)
    have hw : frameScan s.cfg s.rxbuf = .short false := by rw [this]; simp [frameScan, scanFrom]
    rw [evaluate_eq, hw]
    exact .waiting s.rxbuf List.suffix_rfl (by rw [hw]; rfl)
  | succ n ih =>
    intro s hn hp hc
    rw [evaluate_eq]
    cases hs : frameScan s.cfg s.rxbuf with
    | frame id len e p start stop =>
      simp only
      split
      · rename_i hn; simp [hn] at hc
      rename_i t' _
      split
      · exact .completed _ (statusResult_kind _ _ _ _ _)
      · obtain ⟨hpos, hne⟩ := frameScan_stop_pos hs
        have hl : 0 < s.rxbuf.length := List.length_pos_iff.2 hne
        have := ih { s with rxbuf := s.rxbuf.drop stop } (by simp only [List.length_drop]; omega) hp hc
        generalize evaluate { s with rxbuf := s.rxbuf.drop stop } = o at this
        cases this with
        | waiting buf hbuf hw => exact .waiting buf (hbuf.trans (List.drop_suffix _ _)) hw
        | completed r hk => exact .completed r hk
    | ckFail a b => simp only [enterFailure_rxWait _ hp]; exact .completed _ (by simp [lineFailure])
    | noSync => simp only [enterFailure_rxWait _ hp]; exact .completed _ (by simp [lineFailure])
    | short b => exact .waiting s.rxbuf List.suffix_rfl (by rw [hs]; rfl)

/-! ## One step -/

theorem step_nil {s : State} (h : s.events = []) : step s = .next s := by simp [step, h]

theorem step_cons {s : State} {e : Event} {rest : List Event} (h : s.events = e :: rest) :
    step s = takeEvent e { s with events := rest } := by simp [step, h]

/-! ## Several steps -/

@[simp] theorem run_zero (s : State) : run 0 s = .next s := rfl

/-- The first of several steps. -/
theorem run_next {k : Nat} {s t : State} (h : step s = .next t) : run (k + 1) s = run k t := by
  simp only [run, Host.Core.run]
  rw [show core.step s = step s from rfl, h]

/-- Steps one after another. -/
theorem run_add {m : Nat} : ∀ {k : Nat} {s t : State}, run k s = .next t → run (k + m) s = run m t := by
  intro k
  induction k with
  | zero => intro s t h; cases h; rw [Nat.zero_add]
  | succ k ih =>
    intro s t h
    rw [show k + 1 + m = (k + m) + 1 by omega]
    cases hs : step s with
    | next s' => rw [run_next hs] at h; rw [run_next hs]; exact ih h
    | fault r =>
      simp only [run, Host.Core.run] at h
      rw [show core.step s = step s from rfl, hs] at h
      cases h
    | refused r =>
      simp only [run, Host.Core.run] at h
      rw [show core.step s = step s from rfl, hs] at h
      cases h

end Sys2Proof.Machine
end

