-- ==== Sys2Proof/Laws/LineFormat.lean ====
section
/-! SUPPORT. LINE_FORMAT is opaque to every rule (20_memory.md R54): changing it changes no step. -/

namespace Sys2Proof

/-- The same arguments with another LINE_FORMAT. -/
def Config.withLineFormat (f : LineFormat) (c : Config) : Config := { c with lineFormat := f }

variable {f : LineFormat}

@[simp] theorem frameScan_withLineFormat (cfg : Config) (buf : List Byte) :
    frameScan (cfg.withLineFormat f) buf = frameScan cfg buf := by
  have cand : ∀ (i : Nat) (l : List Byte), scanCandidate (cfg.withLineFormat f) i l = scanCandidate cfg i l := by
    intro i l
    match l with
    | [] => rfl
    | [_] => rfl
    | _ :: _ :: _ => rfl
  have key : ∀ (l : List Byte) (i : Nat), scanFrom (cfg.withLineFormat f) i l = scanFrom cfg i l := by
    intro l
    induction l with
    | nil => intro i; rfl
    | cons b0 l ih =>
      intro i
      match l, ih with
      | [], _ => rfl
      | b1 :: rest, ih =>
        rw [scanFrom, scanFrom, cand, ih]
        rfl
  exact key buf 0

namespace Machine

/-- The same state of a block whose line has another format. -/
def State.withLineFormat (f : LineFormat) (s : State) : State := { s with cfg := s.cfg.withLineFormat f }

/-- A change of the next state, where there is one. -/
def onNext (g : State → State) : Outcome → Outcome
  | .next s => .next (g s)
  | .fault r => .fault r
  | .refused r => .refused r

/-- An outcome does not depend on LINE_FORMAT. -/
def Blind (f : LineFormat) (op : State → Outcome) : Prop :=
  ∀ s, op (s.withLineFormat f) = onNext (State.withLineFormat f) (op s)

theorem acceptCommand_blind {checks : List (Bool × Reason)} {body : State → Outcome} {s : State}
    (h : body (s.withLineFormat f) = onNext (State.withLineFormat f) (body s)) :
    acceptCommand checks body (s.withLineFormat f)
      = onNext (State.withLineFormat f) (acceptCommand checks body s) := by
  obtain ⟨cfg, ph, po, ba, ti, tx, rx, cur, wo, re, he, ev⟩ := s
  simp only [acceptCommand, State.withLineFormat]
  cases ph <;> cases firstFailure checks <;> first | rfl | exact h

theorem sendRequest_blind (cmd : TxnCmd) (op : Opcode) (id : Byte) (p : List Byte) (w : Option Nat) :
    Blind f (sendRequest cmd op id p w) := by
  rintro ⟨cfg, ph, po, ba, ti, tx, rx, cur, wo, re, he, ev⟩
  simp only [sendRequest, State.withLineFormat]
  have h : encodePacket (cfg.withLineFormat f) id op p = encodePacket cfg id op p := rfl
  rw [h]
  cases encodePacket cfg id op p with
  | error r => cases ph <;> rfl
  | ok q => rfl

theorem exec_blind (i : Instr) : Blind f (exec i) := by
  intro s
  cases i with
  | syncRead id p =>
    exact acceptCommand_blind (checks := []) (body := fun _ => .refused .syncReadUnspecified) rfl
  | _ => exact acceptCommand_blind (sendRequest_blind _ _ _ _ _ s)

theorem execCommand_blind (c : Command) : Blind f (execCommand c) := by
  intro s
  cases c with
  | instr i => exact exec_blind i s
  | openPort =>
    obtain ⟨cfg, ph, po, ba, ti, tx, rx, cur, wo, re, he, ev⟩ := s
    cases ph <;> rfl
  | closePort =>
    obtain ⟨cfg, ph, po, ba, ti, tx, rx, cur, wo, re, he, ev⟩ := s
    cases ph <;> rfl
  | transact q expect =>
    have hw : isWholePacket (s.withLineFormat f).cfg q = isWholePacket s.cfg q := by
      simp [isWholePacket, State.withLineFormat]
    simp only [execCommand, execTransact, hw]
    exact acceptCommand_blind rfl
  | readRegister id addr w => exact exec_blind (.read id addr w) s
  | writeRegister id addr v w => exact acceptCommand_blind (exec_blind (.write _ _ _) s)
  | syncWriteValues ids addr w values => exact acceptCommand_blind (exec_blind (.syncWrite _ _ _ _) s)

theorem evaluateUpTo_blind (n : Nat) : Blind f (evaluateUpTo n) := by
  induction n with
  | zero => intro s; rfl
  | succ n ih =>
    rintro ⟨cfg, ph, po, ba, ti, tx, rx, cur, wo, re, he, ev⟩
    rw [evaluateUpTo, evaluateUpTo]
    simp only [State.withLineFormat, frameScan_withLineFormat]
    cases frameScan cfg rx with
    | frame id len e p start stop =>
      cases cur with
      | none => rfl
      | some t =>
        simp only
        split
        · rfl
        · exact ih ⟨cfg, ph, po, ba, ti, tx, rx.drop stop, some t, wo, re, he, ev⟩
    | ckFail => cases ph <;> rfl
    | noSync => cases ph <;> rfl
    | short => rfl

theorem takeEvent_blind (e : Event) : Blind f (takeEvent e) := by
  intro s
  cases e with
  | cmd c =>
    simp only [takeEvent, presentCommand]
    rw [show (s.withLineFormat f).ready = s.ready from rfl]
    split
    · exact execCommand_blind c s
    · rfl
  | reoffer k =>
    simp only [takeEvent, reofferCommand]
    rw [show (s.withLineFormat f).ready = s.ready from rfl, show (s.withLineFormat f).held = s.held from rfl]
    cases s.held[k]? with
    | none => rfl
    | some c =>
      simp only
      split
      · exact execCommand_blind c { s with held := s.held.eraseIdx k }
      · rfl
  | txAccept =>
    obtain ⟨cfg, ph, po, ba, ti, tx, rx, cur, wo, re, he, ev⟩ := s
    cases ph <;> cases tx <;> try rfl
    simp only [takeEvent, onTxAccept, State.withLineFormat]
    split
    · cases cur with
      | none => rfl
      | some t => simp only [txDone]; split <;> rfl
    · rfl
  | rxByte b =>
    obtain ⟨cfg, ph, po, ba, ti, tx, rx, cur, wo, re, he, ev⟩ := s
    cases ph <;> try rfl
    exact evaluateUpTo_blind _ ⟨cfg, .rxWait, po, ba, ti, tx, rx ++ [b], cur, wo, re, he, ev⟩
  | timeout =>
    obtain ⟨cfg, ph, po, ba, ti, tx, rx, cur, wo, re, he, ev⟩ := s
    cases ph <;> try rfl
    simp [takeEvent, onTimeout, State.withLineFormat, expiryKind, enterFailure]
    rfl
  | ioFail =>
    obtain ⟨cfg, ph, po, ba, ti, tx, rx, cur, wo, re, he, ev⟩ := s
    cases ph <;> rfl

/-- R54: two blocks that differ in LINE_FORMAT alone take the same step. -/
theorem step_withLineFormat (f : LineFormat) (s : State) :
    step (s.withLineFormat f) = onNext (State.withLineFormat f) (step s) := by
  cases h : s.events with
  | nil => rw [step_nil h, step_nil (s := s.withLineFormat f) h]; rfl
  | cons e rest =>
    rw [step_cons h, step_cons (s := s.withLineFormat f) h]
    exact takeEvent_blind e { s with events := rest }

end Machine

end Sys2Proof
end

