-- ==== Sys2Proof/Laws/PerInstr.lean ====
section
/-! SUPPORT. Per instruction: the parameter block of a well-formed instruction, cut into operands again, gives the
instruction back (30_encoding.md R78 to R85). -/

namespace Sys2Proof.Laws.Operands

/-- Operands survive being laid out as a parameter block. -/
def Statement (i : Instr) : Prop :=
  ∀ cfg : Config, cfg.wf = true → i.wf cfg = true → instrOf i.opcode i.target i.params = .ok i

theorem ping (id : Byte) : Statement (.ping id) := by
  intro _ _ _
  rfl

/-- A READ width fits in its byte because MAX_PARAMS does (42_commands.md R171). -/
theorem read (id addr : Byte) (w : Nat) : Statement (.read id addr w) := by
  intro cfg hcfg h
  have hu := Config.wf.upper hcfg
  simp only [Instr.wf, Bool.and_eq_true, decide_eq_true_eq] at h
  have hmax : cfg.maxParams = cfg.maxPacketBytes - 6 := rfl
  have hw : (BitVec.ofNat 8 w).toNat = w := by rw [BitVec.toNat_ofNat]; omega
  simp only [Instr.opcode, Instr.target, Instr.params, instrOf, hw]

theorem write (id addr : Byte) (data : List Byte) : Statement (.write id addr data) := by
  intro _ _ _
  rfl

theorem regWrite (id addr : Byte) (data : List Byte) : Statement (.regWrite id addr data) := by
  intro _ _ _
  rfl

theorem action (id : Byte) : Statement (.action id) := by
  intro _ _ _
  rfl

theorem reset (id : Byte) : Statement (.reset id) := by
  intro _ _ _
  rfl

theorem syncRead (id : Byte) (params : List Byte) : Statement (.syncRead id params) := by
  intro _ _ _
  simp only [Instr.opcode, Instr.target, Instr.params, instrOf]

theorem syncWrite (ids : List Byte) (addr : Byte) (w : Nat) (data : List (Byte × List Byte)) :
    Statement (.syncWrite ids addr w data) := by
  intro cfg _ h
  simp only [Instr.wf, Bool.and_eq_true, decide_eq_true_eq, List.all_eq_true] at h
  obtain ⟨⟨⟨⟨⟨⟨⟨_, _⟩, hn⟩, _⟩, hw⟩, rfl⟩, hd⟩, _⟩ := h
  have hwn : (BitVec.ofNat 8 w).toNat = w := by rw [BitVec.toNat_ofNat]; omega
  have hl : data.length ≤ (entryBytes data).length := by
    rw [entryBytes_length hd, Nat.mul_succ]
    omega
  simp only [Instr.opcode, Instr.target, Instr.params, syncParams, instrOf, hwn]
  rw [if_neg (by simp), flatMap_lookup_eq_entryBytes hn, splitEntries_entryBytes hd _ hl]

end Sys2Proof.Laws.Operands
end

