-- ==== Sys2Proof/Laws/Steps.lean ====
section
/-! SUPPORT. Everything that accepting a command and taking an event can do, said once, so that a claim about all steps
is a short case analysis. -/

namespace Sys2Proof.Machine

/-! ## A frame that starts at 0 -/

/-- A frame found from index `i` on starts at `i` or later. -/
theorem scanFrom_start_ge {cfg : Config} {id len b4 : Byte} {p : List Byte} {start stop : Nat} :
    ∀ (l : List Byte) (i : Nat), scanFrom cfg i l = .frame id len b4 p start stop → i ≤ start := by
  intro l
  induction l with
  | nil => intro i h; simp [scanFrom] at h; split at h <;> simp at h
  | cons b0 l ih =>
    intro i h
    match l, ih, h with
    | [], _, h => simp [scanFrom] at h; split at h <;> simp at h
    | b1 :: rest, ih, h =>
      rw [scanFrom] at h
      split at h
      · simp at h
      split at h
      · split at h
        · rename_i r hc
          subst h
          match rest, hc with
          | [], hc => simp [scanCandidate] at hc
          | [x], hc => rw [scanCandidate] at hc; split at hc <;> simp at hc
          | x :: y :: body, hc =>
            simp only [scanCandidate] at hc
            split_ifs at hc <;> simp at hc
            omega
        · exact Nat.le_of_succ_le (ih _ h)
      · exact Nat.le_of_succ_le (ih _ h)

/-- A frame that starts at 0 has its id in the third byte. -/
theorem frameScan_id_at_start {cfg : Config} {q : List Byte} {id len b4 : Byte} {p : List Byte} {stop : Nat}
    (h : frameScan cfg q = .frame id len b4 p 0 stop) : q.getD 2 0 = id := by
  rw [frameScan] at h
  match q, h with
  | [], h => simp [scanFrom] at h
  | [_], h => simp [scanFrom] at h
  | b0 :: b1 :: rest, h =>
    rw [scanFrom] at h
    split at h
    · simp at h
    split at h
    · split at h
      · rename_i r hc
        subst h
        match rest, hc with
        | [], hc => simp [scanCandidate] at hc
        | [x], hc => rw [scanCandidate] at hc; split at hc <;> simp at hc
        | x :: y :: body, hc =>
          simp only [scanCandidate] at hc
          split_ifs at hc <;> simp at hc
          exact hc.1
      · have := scanFrom_start_ge _ _ h; omega
    · have := scanFrom_start_ge _ _ h; omega

/-- What the check of TRANSACT asks (42_commands.md R166). -/
theorem isWholePacket_iff {cfg : Config} {q : List Byte} : isWholePacket cfg q = true ↔
    ∃ (id len b4 : Byte) (p : List Byte), frameScan cfg q = .frame id len b4 p 0 q.length := by
  unfold isWholePacket
  cases frameScan cfg q <;> simp

/-! ## Accepting a command -/

/-- Everything that accepting a command on a ready block can do. -/
inductive CommandDone (s : State) : Command → Outcome → Prop where
  | answered (c : Command) (r : Result) : CommandDone s c (.next (deliver r s))
  | started (c : Command) (t : Txn) (q : List Byte) (h : s.phase = .idle) (hq : q ≠ [])
      (hlen : s.cfg.wf = true → q.length ≤ s.cfg.maxPacketBytes) (ht : t.legal = true) :
      CommandDone s c (.next (startTx t q s))
  | opened (port : PortName) (baud timeout : Nat) (h : s.phase = .closed) :
      CommandDone s (.openPort port baud timeout) (.next (deliver okResult
        { s with port := some port, baud := some baud, timeout := some timeout, rxbuf := [], phase := .idle }))
  | closed (h : s.phase = .idle) :
      CommandDone s .closePort (.next (deliver okResult
        { s with port := none, baud := none, timeout := none, rxbuf := [], phase := .closed }))
  | refused (id : Byte) (p : List Byte) (h : s.phase = .idle) :
      CommandDone s (.instr (.syncRead id p)) (.refused .syncReadUnspecified)

/-- A typed instruction, under the name of the command that ran it. -/
theorem CommandDone.of_exec {s : State} {i : Instr} {o : Outcome} (c : Command) (h : Accepted s i o)
    (hi : c = .instr i ∨ ∀ id p, i ≠ .syncRead id p) : CommandDone s c o := by
  cases h with
  | notOpen => exact .answered c _
  | failed => exact .answered c _
  | started _ t q h hq hlen ht => exact .started c t q h hq (fun _ => hlen) ht
  | refused id p h =>
    rcases hi with rfl | hi
    · exact .refused id p h
    · exact absurd rfl (hi id p)

/-- A command with checks, given what its own rule does once they pass. -/
theorem CommandDone.of_checks {s : State} {c : Command} {checks : List (Bool × Reason)} {body : State → Outcome}
    (hr : s.ready = true)
    (hb : s.phase = .idle → firstFailure checks = none → CommandDone s c (body s)) :
    CommandDone s c (acceptCommand checks body s) := by
  rcases ready_iff.1 hr with h | h
  · rw [acceptCommand_closed h]; exact .answered c _
  · cases hf : firstFailure checks with
    | some r => rw [acceptCommand_fail h hf]; exact .answered c _
    | none => rw [acceptCommand_pass h hf]; exact hb h hf

theorem execCommand_done {s : State} (c : Command) (hr : s.ready = true) : CommandDone s c (execCommand c s) := by
  cases c with
  | instr i => exact .of_exec _ (exec_accepted i hr) (.inl rfl)
  | openPort port baud timeout =>
    rcases ready_iff.1 hr with h | h
    · simp only [execCommand, execOpen, h]; exact .opened port baud timeout h
    · simp only [execCommand, execOpen, h, enterFailure_idle]; exact .answered _ _
  | closePort =>
    rcases ready_iff.1 hr with h | h
    · simp only [execCommand, execClose, h]; exact .answered _ _
    · simp only [execCommand, execClose, h]; exact .closed h
  | transact q expect =>
    simp only [execCommand, execTransact]
    refine .of_checks hr fun h hf => .started _ _ _ h ?_ ?_ (by simp [Txn.legal])
    all_goals
      have hw : isWholePacket s.cfg q = true := by
        cases hw : isWholePacket s.cfg q
        · simp [firstFailure_cons, hw] at hf
        · rfl
      obtain ⟨id, len, b4, p, hs⟩ := isWholePacket_iff.1 hw
    · exact (frameScan_stop_pos hs).2
    · intro hc
      have := (scanFrom_frame hc q 0 hs).2
      omega
  | readRegister id addr w => exact .of_exec _ (exec_accepted (.read id addr w) hr) (.inr (by simp))
  | writeRegister id addr v w =>
    exact .of_checks hr fun _ _ => .of_exec _ (exec_accepted (.write id addr (leBytes v w)) hr) (.inr (by simp))
  | syncWriteValues ids addr w values =>
    exact .of_checks hr fun _ _ =>
      .of_exec _ (exec_accepted (.syncWrite ids addr w (valueBytes ids w values)) hr) (.inr (by simp))

/-- On a busy block nothing is accepted and nothing changes (10_state.md R38). -/
theorem exec_busy {s : State} (i : Instr) (h : s.busy = true) : exec i s = .next s := by
  cases i with
  | syncRead id p => simp only [exec, execSyncRead]; exact acceptCommand_busy h
  | _ => exact acceptCommand_busy h

/-! ## Taking an event -/

/-- A ready block accepts the command presented (42_commands.md R151). -/
theorem presentCommand_ready {c : Command} {s : State} (h : s.ready = true) :
    presentCommand c s = execCommand c s := if_pos h

/-- Everything that taking an event can do; the state is the one without the event. -/
inductive EventDone (s : State) : Event → Outcome → Prop where
  | presented (c : Command) (o : Outcome) (h : s.ready = true) (hc : CommandDone s c o) : EventDone s (.cmd c) o
  | held (c : Command) (h : s.busy = true) : EventDone s (.cmd c) (.next { s with held := s.held ++ [c] })
  | reoffered (k : Nat) (c : Command) (o : Outcome) (h : s.ready = true) (hk : s.held[k]? = some c)
      (hc : CommandDone { s with held := s.held.eraseIdx k } c o) : EventDone s (.reoffer k) o
  | stays (k : Nat) (h : s.held[k]? = none ∨ s.busy = true) : EventDone s (.reoffer k) (.next s)
  | ignored (e : Event) (h : e = .txAccept ∨ (∃ b, e = .rxByte b) ∨ e = .timeout ∨ e = .ioFail) :
      EventDone s e (.next s)
  | sent (b : Byte) (q : List Byte) (h : s.phase = .tx) (hq : s.txq = b :: q) (hne : q ≠ []) :
      EventDone s .txAccept (.next { s with wireOut := s.wireOut ++ [b], txq := q })
  | sentLast (b : Byte) (t : Txn) (h : s.phase = .tx) (hq : s.txq = [b]) (hc : s.cur = some t) (ht : t.expect = true) :
      EventDone s .txAccept (.next { s with wireOut := s.wireOut ++ [b], txq := [], phase := .rxWait })
  | sentAll (b : Byte) (t : Txn) (h : s.phase = .tx) (hq : s.txq = [b]) (hc : s.cur = some t) (ht : t.expect = false) :
      EventDone s .txAccept (.next (complete okResult { s with wireOut := s.wireOut ++ [b], txq := [] }))
  | residual (b : Byte) (h : s.phase = .idle) : EventDone s (.rxByte b) (.next { s with rxbuf := s.rxbuf ++ [b] })
  | waiting (b : Byte) (buf : List Byte) (h : s.phase = .rxWait) (hw : (frameScan s.cfg buf).waits = true) :
      EventDone s (.rxByte b) (.next { s with rxbuf := buf })
  | completed (e : Event) (r : Result) (h : s.phase = .rxWait) (he : e = .timeout ∨ ∃ b, e = .rxByte b)
      (hk : r.kind ≠ .encoding ∧ r.kind ≠ .portClosed) :
      EventDone s e (.next (complete r s))
  | lost (h : s.phase ≠ .closed) : EventDone s .ioFail (.next (closeOnIoFail s))
  | noTransaction (e : Event) (h : s.busy = true) (hc : s.cur = none) : EventDone s e (.fault .noTransaction)

theorem takeEvent_done (e : Event) (s : State) : EventDone s e (takeEvent e s) := by
  cases e with
  | cmd c =>
    rw [takeEvent, presentCommand]
    split
    · rename_i h; exact .presented c _ h (execCommand_done c h)
    · rename_i h; exact .held c (by rw [busy_eq_not_ready]; simpa using h)
  | reoffer k =>
    rw [takeEvent, reofferCommand]
    cases hk : s.held[k]? with
    | none => exact .stays k (.inl hk)
    | some c =>
      simp only
      split
      · rename_i h; exact .reoffered k c _ h hk (execCommand_done (s := { s with held := s.held.eraseIdx k }) c h)
      · rename_i h; exact .stays k (.inr (by rw [busy_eq_not_ready]; simpa using h))
  | txAccept =>
    rw [takeEvent, onTxAccept]
    split
    · rename_i b q h hq
      simp only
      split
      · rename_i hne
        subst hne
        rw [txDone]
        split
        · rename_i hc; exact .noTransaction _ (busy_iff.2 (.inl h)) hc
        · rename_i t hc
          split
          · rename_i ht; exact .sentLast b t h hq hc ht
          · rename_i ht; exact .sentAll b t h hq hc (by simpa using ht)
      · rename_i hne; exact .sent b q h hq hne
    all_goals exact .ignored _ (by simp)
  | rxByte b =>
    rw [takeEvent, onRxByte]
    split
    · exact .ignored _ (by simp)
    · rename_i h; exact .residual b h
    · exact .ignored _ (by simp)
    · rename_i h
      by_cases hc : s.cur = none
      · rw [evaluate_eq]
        simp only [hc]
        split
        · exact .noTransaction _ (busy_iff.2 (.inr h)) hc
        · simp only [enterFailure, h]; exact .completed _ _ h (.inr ⟨b, rfl⟩) (by simp [lineFailure])
        · simp only [enterFailure, h]; exact .completed _ _ h (.inr ⟨b, rfl⟩) (by simp [lineFailure])
        · rename_i w hs; rw [← hc]; exact .waiting b _ h (by rw [hs]; rfl)
      · obtain ⟨t, hc⟩ := Option.ne_none_iff_exists'.1 hc
        have he := evaluated (t := t) _ { s with rxbuf := s.rxbuf ++ [b] } le_rfl h hc
        generalize evaluate { s with rxbuf := s.rxbuf ++ [b] } = o at he
        cases he with
        | waiting buf _ hw => exact .waiting b buf h hw
        | completed r hk => exact .completed _ r h (.inr ⟨b, rfl⟩) hk
  | timeout =>
    rw [takeEvent, onTimeout]
    split
    · exact .ignored _ (by simp)
    · exact .ignored _ (by simp)
    · exact .ignored _ (by simp)
    · rename_i h
      rw [enterFailure_rxWait _ h]
      refine .completed _ _ h (.inl rfl) ?_
      simp only [lineFailure, expiryKind]
      split <;> simp
  | ioFail =>
    rw [takeEvent, onIoFail]
    split
    · exact .ignored _ (by simp)
    all_goals rename_i h; exact .lost (by simp [h])

end Sys2Proof.Machine
end

