-- ==== Sys2Proof/Laws/ScanTraffic.lean ====
section
/-! SUPPORT. What a scan puts on the wire (42_commands.md R191): one PING packet for each id, in order, and no other
byte, whatever the line, the timer and the port do. -/

namespace Sys2Proof.Machine

/-- An event of the line, the timer or the port, so one that no host caller makes. -/
def Event.fromLine : Event → Bool
  | .txAccept => true
  | .rxByte _ => true
  | .timeout => true
  | .ioFail => true
  | .cmd _ => false
  | .reoffer _ => false

/-- The packet of a PING to `id` (42_commands.md R169). -/
def pingPacket (cfg : Config) (id : Byte) : List Byte := packetBytes id (cfg.instrCode.code .ping) []

theorem pingPacket_length (cfg : Config) (id : Byte) : (pingPacket cfg id).length = 6 := by
  simp [pingPacket, packetBytes_length]

/-- The PING packets of the ids, one after another. -/
def pingTraffic (cfg : Config) (ids : List Byte) : List Byte := ids.flatMap (pingPacket cfg)

theorem scanIds_length (lo hi : Nat) : (scanIds lo hi).length = hi + 1 - lo := by simp [scanIds]

theorem scanIds_unicast {lo hi : Nat} (h : hi ≤ 253) : ∀ id ∈ scanIds lo hi, id.toNat ≤ 253 := by
  intro id hid
  simp only [scanIds, List.mem_map, List.mem_range'_1] at hid
  obtain ⟨n, ⟨hl, hn⟩, rfl⟩ := hid
  rw [BitVec.toNat_ofNat, Nat.mod_eq_of_lt (by omega)]
  omega

/-! ## The scan reads a result -/

/-- What reading a result does: the scan goes on with the next id, or stops on the kinds R190 stops on. -/
theorem ScanRun.read_cases {run : ScanRun} {id : Byte} {rest : List Byte} (r : Result) (hs : run.stopped = none)
    (ht : run.todo = id :: rest) :
    ((r.kind = .encoding ∨ r.kind = .portClosed) ∧ run.read r = { run with stopped := some r }) ∨
    ((r.kind ≠ .encoding ∧ r.kind ≠ .portClosed) ∧ (run.read r).todo = rest ∧ (run.read r).stopped = none) := by
  obtain ⟨todo, found, stopped⟩ := run
  cases hs
  cases ht
  cases hk : r.kind <;> simp [ScanRun.read, probeResult, hk]

/-! ## A PING on the block -/

theorem execPing_sends {s : State} {id : Byte} (hc : s.cfg.wf = true) (h : s.phase = .idle) (hid : id.toNat ≤ 253) :
    exec (.ping id) s = .next (startTx
      { cmd := .ping, id := id, instr := some .ping, expect := true, width := none } (pingPacket s.cfg id) s) := by
  have h255 : id ≠ 255 := by rintro rfl; simp at hid
  have h254 : id ≠ broadcastId := by rintro rfl; simp [broadcastId] at hid
  rw [exec, execPing, acceptCommand_pass h (by
    rw [firstFailure_cons, firstFailure_cons, decide_eq_false h255, decide_eq_false h254]
    rfl),
    sendRequest_ok h255 (by simpa using Config.wf.lower hc)]
  simp [h254, pingPacket]

/-! ## One move of a scan -/

section Moves

variable {turn : ScanTurn} {h : ScanSession}

theorem advance_read {old : List Result} {r : Result} (ha : h.awaiting = some old.length)
    (hr : h.block.results = old ++ [r]) :
    h.advance turn = .next { h with run := h.run.read r, awaiting := none } := by
  simp [ScanSession.advance, ha, hr]

theorem advance_wait {s : State} (ha : h.awaiting = some h.block.results.length) (hs : step h.block = .next s) :
    h.advance turn = .next { h with block := s } := by
  simp [ScanSession.advance, ScanSession.stepBlock, ha, hs]

theorem advance_present {id : Byte} {rest : List Byte} (ha : h.awaiting = none) (hs : h.run.stopped = none)
    (ht : h.run.todo = id :: rest) (hr : h.block.ready = true) :
    h.advance .scan = .next { h with
      block := { h.block with events := .cmd (.instr (.ping id)) :: h.block.events }
      awaiting := some h.block.results.length } := by
  simp [ScanSession.advance, ScanRun.next, ha, hs, ht, hr]

theorem advance_block {id : Byte} {rest : List Byte} {s : State} (ha : h.awaiting = none) (hr : h.run.stopped = none)
    (ht : h.run.todo = id :: rest) (hs : step h.block = .next s) :
    h.advance .block = .next { h with block := s } := by
  simp [ScanSession.advance, ScanSession.stepBlock, ScanRun.next, ha, hr, ht, hs]

theorem advance_returned (ha : h.awaiting = none) (hn : h.run.next = none) : h.advance turn = .next h := by
  simp [ScanSession.advance, ha, hn]

end Moves

/-! ## The invariant of a scan -/

/-- Where a scan on a block can be, when `sent` is what the wire holds up to the PINGs that are over. -/
inductive ScanAt (sent : List Byte) (h : ScanSession) : Prop where
  /-- Between two PINGs, or at the end; the port may have failed meanwhile. -/
  | between (hs : h.run.stopped = none) (ha : h.awaiting = none) (hp : h.block.ready = true)
      (hw : h.block.wireOut = sent) (he : ∀ e ∈ h.block.events, e.fromLine = true)
  /-- A PING is presented and not taken yet. -/
  | presented (id : Byte) (rest : List Byte) (evs : List Event) (hs : h.run.stopped = none)
      (ht : h.run.todo = id :: rest) (ha : h.awaiting = some h.block.results.length) (hp : h.block.ready = true)
      (hw : h.block.wireOut = sent) (hev : h.block.events = .cmd (.instr (.ping id)) :: evs)
      (he : ∀ e ∈ evs, e.fromLine = true)
  /-- The block sends the PING, or waits for its answer. -/
  | busy (id : Byte) (rest done left : List Byte) (t : Txn) (hs : h.run.stopped = none)
      (ht : h.run.todo = id :: rest) (ha : h.awaiting = some h.block.results.length)
      (hc : h.block.cur = some t) (hx : t.expect = true)
      (hp : h.block.phase = .tx ∧ h.block.txq = left ∨ h.block.phase = .rxWait ∧ left = [])
      (hq : pingPacket h.block.cfg id = done ++ left) (hw : h.block.wireOut = sent ++ done)
      (he : ∀ e ∈ h.block.events, e.fromLine = true)
  /-- The result of the PING is there, its packet sent whole. -/
  | answered (id : Byte) (rest : List Byte) (old : List Result) (r : Result) (hs : h.run.stopped = none)
      (ht : h.run.todo = id :: rest) (hr : h.block.results = old ++ [r]) (ha : h.awaiting = some old.length)
      (hk : r.kind ≠ .encoding ∧ r.kind ≠ .portClosed) (hp : h.block.phase = .idle)
      (hw : h.block.wireOut = sent ++ pingPacket h.block.cfg id) (he : ∀ e ∈ h.block.events, e.fromLine = true)
  /-- The port failed before the PING was accepted, or while it was on its way. -/
  | lost (id : Byte) (rest done left : List Byte) (old : List Result) (r : Result) (hs : h.run.stopped = none)
      (ht : h.run.todo = id :: rest) (hr : h.block.results = old ++ [r]) (ha : h.awaiting = some old.length)
      (hk : r.kind = .portClosed) (hq : pingPacket h.block.cfg id = done ++ left)
      (hw : h.block.wireOut = sent ++ done)
  /-- The scan has stopped on PORT_CLOSED. -/
  | stopped (id : Byte) (rest done left : List Byte) (r : Result) (hs : h.run.stopped = some r)
      (ht : h.run.todo = id :: rest) (ha : h.awaiting = none) (hk : r.kind = .portClosed)
      (hq : pingPacket h.block.cfg id = done ++ left) (hw : h.block.wireOut = sent ++ done)

/-- A scan of `ids` on a block with the arguments `cfg`, whose wire held `before` when the scan began. -/
structure ScanInv (cfg : Config) (before ids : List Byte) (h : ScanSession) : Prop where
  wf : cfg.wf = true
  cfgEq : h.block.cfg = cfg
  unicast : ∀ id ∈ ids, id.toNat ≤ 253
  place : ∃ past : List Byte, ids = past ++ h.run.todo ∧ ScanAt (before ++ pingTraffic cfg past) h

/-- The invariant holds where a scan starts. -/
theorem ScanInv.start {s : State} {lo hi : Nat} (hc : s.cfg.wf = true) (hp : s.phase = .idle) (hhi : hi ≤ 253)
    (he : ∀ e ∈ s.events, e.fromLine = true) :
    ScanInv s.cfg s.wireOut (scanIds lo hi) (scanOn lo hi s) where
  wf := hc
  cfgEq := rfl
  unicast := scanIds_unicast hhi
  place := ⟨[], rfl, .between rfl rfl (ready_iff.2 (.inr hp)) (by simp [scanOn, pingTraffic]) he⟩

/-- One event of the line, the timer or the port, while a PING is sent or its answer awaited. -/
theorem ScanAt.event {sent : List Byte} {h : ScanSession} {id : Byte} {rest done left : List Byte} {t : Txn}
    (hs : h.run.stopped = none) (ht : h.run.todo = id :: rest) (ha : h.awaiting = some h.block.results.length)
    (hc : h.block.cur = some t) (hx : t.expect = true)
    (hp : h.block.phase = .tx ∧ h.block.txq = left ∨ h.block.phase = .rxWait ∧ left = [])
    (hq : pingPacket h.block.cfg id = done ++ left) (hw : h.block.wireOut = sent ++ done)
    (he : ∀ e ∈ h.block.events, e.fromLine = true) :
    ∃ s, step h.block = .next s ∧ s.cfg = h.block.cfg ∧ ScanAt sent { h with block := s } := by
  obtain ⟨b, run, aw⟩ := h
  simp only at *
  cases hev : b.events with
  | nil => exact ⟨b, step_nil hev, rfl, .busy id rest done left t hs ht ha hc hx hp hq hw (by simp [hev])⟩
  | cons e evs =>
    have hl : e.fromLine = true := he e (by simp [hev])
    have he' : ∀ x ∈ evs, x.fromLine = true := fun x hx => he x (by simp [hev, hx])
    rw [step_cons hev]
    have hd := takeEvent_done e { b with events := evs }
    generalize takeEvent e { b with events := evs } = o at hd
    cases hd with
    | presented => simp [Event.fromLine] at hl
    | held => simp [Event.fromLine] at hl
    | reoffered => simp [Event.fromLine] at hl
    | stays => simp [Event.fromLine] at hl
    | ignored => exact ⟨_, rfl, rfl, .busy id rest done left t hs ht ha hc hx hp hq hw he'⟩
    | sent x q hp' hq' hne =>
      refine ⟨_, rfl, rfl, .busy id rest (done ++ [x]) q t hs ht ha hc hx (.inl ⟨hp', rfl⟩) ?_ ?_ he'⟩
      · rcases hp with ⟨-, h⟩ | ⟨h, -⟩
        · simp [hq, ← h, show b.txq = x :: q from hq']
        · simp [h] at hp'
      · simp [hw]
    | sentLast x t' hp' hq' hc' hx' =>
      refine ⟨_, rfl, rfl, .busy id rest (done ++ [x]) [] t hs ht ha hc hx (.inr ⟨rfl, rfl⟩) ?_ ?_ he'⟩
      · rcases hp with ⟨-, h⟩ | ⟨h, -⟩
        · simp [hq, ← h, show b.txq = [x] from hq']
        · simp [h] at hp'
      · simp [hw]
    | sentAll x t' _ _ hc' hx' =>
      obtain rfl : t = t' := Option.some.inj (hc.symm.trans hc')
      simp [hx] at hx'
    | residual x hp' => rcases hp with ⟨h, -⟩ | ⟨h, -⟩ <;> simp [h] at hp'
    | waiting x buf hp' => exact ⟨_, rfl, rfl, .busy id rest done left t hs ht ha hc hx hp hq hw he'⟩
    | completed _ r hp' _ hk =>
      refine ⟨_, rfl, rfl, .answered id rest b.results r hs ht rfl ha hk rfl ?_ he'⟩
      rcases hp with ⟨h, -⟩ | ⟨-, rfl⟩
      · simp [h] at hp'
      · simp [hw, hq]
    | lost =>
      exact ⟨_, rfl, rfl, .lost id rest done left b.results (portClosedError .ioFail) hs ht (by simp [hc]) ha rfl hq hw⟩
    | noTransaction _ _ hn => simp [hc] at hn

/-- One event of the line, the timer or the port on a block without a transaction: nothing goes on the wire. -/
theorem step_ready_fromLine {s : State} (hr : s.ready = true) (he : ∀ e ∈ s.events, e.fromLine = true) :
    ∃ t, step s = .next t ∧ t.cfg = s.cfg ∧ t.ready = true ∧ t.wireOut = s.wireOut ∧
      ∀ e ∈ t.events, e.fromLine = true := by
  cases hev : s.events with
  | nil => exact ⟨s, step_nil hev, rfl, hr, rfl, he⟩
  | cons e evs =>
    have hl : e.fromLine = true := he e (by simp [hev])
    have he' : ∀ x ∈ evs, x.fromLine = true := fun x hx => he x (by simp [hev, hx])
    have hnb : s.busy = false := by rw [busy_eq_not_ready, hr]; rfl
    have htx : s.phase ≠ .tx := fun h => by simp [busy_iff.2 (.inl h)] at hnb
    have hrx : s.phase ≠ .rxWait := fun h => by simp [busy_iff.2 (.inr h)] at hnb
    rw [step_cons hev]
    have hd := takeEvent_done e { s with events := evs }
    generalize takeEvent e { s with events := evs } = o at hd
    cases hd with
    | presented => simp [Event.fromLine] at hl
    | held => simp [Event.fromLine] at hl
    | reoffered => simp [Event.fromLine] at hl
    | stays => simp [Event.fromLine] at hl
    | ignored => exact ⟨_, rfl, rfl, hr, rfl, he'⟩
    | sent b q h => exact absurd h htx
    | sentLast b t h => exact absurd h htx
    | sentAll b t h => exact absurd h htx
    | residual => exact ⟨_, rfl, rfl, hr, rfl, he'⟩
    | waiting b buf h => exact absurd h hrx
    | completed _ r h => exact absurd h hrx
    | lost => exact ⟨_, rfl, rfl, rfl, rfl, he'⟩
    | noTransaction _ h => exact absurd (show s.busy = true from h) (by simp [hnb])

/-- No move of the scan stops, and each keeps the invariant. -/
theorem ScanInv.advance {cfg : Config} {before ids : List Byte} {h : ScanSession} (turn : ScanTurn)
    (inv : ScanInv cfg before ids h) :
    ∃ t, h.advance turn = .next t ∧ ScanInv cfg before ids t := by
  obtain ⟨hwf, hcfg, huni, past, hids, hat⟩ := inv
  cases hat with
  | between hs ha hp hw he =>
    cases ht : h.run.todo with
    | nil =>
      exact ⟨h, advance_returned ha (by simp [ScanRun.next, hs, ht]), hwf, hcfg, huni, past, hids,
        .between hs ha hp hw he⟩
    | cons id rest =>
      cases turn with
      | scan =>
        exact ⟨_, advance_present ha hs ht hp, hwf, hcfg, huni, past, hids,
          .presented id rest h.block.events hs ht rfl hp hw rfl he⟩
      | block =>
        obtain ⟨s, hstep, hcfg', hp', hw', he'⟩ := step_ready_fromLine hp he
        exact ⟨_, advance_block ha hs ht hstep, hwf, hcfg'.trans hcfg, huni, past, hids,
          .between hs ha hp' (hw'.trans hw) he'⟩
  | presented id rest evs hs ht ha hp hw hev he =>
    have hid : id.toNat ≤ 253 := huni id (by simp [hids, ht])
    have hstep := step_cons hev
    rw [takeEvent, presentCommand_ready (s := { h.block with events := evs }) hp, execCommand] at hstep
    rcases ready_iff.1 hp with hp | hp
    · rw [exec, execPing, acceptCommand_closed (s := { h.block with events := evs }) hp] at hstep
      exact ⟨_, advance_wait ha hstep, hwf, hcfg, huni, past, hids,
        .lost id rest [] _ h.block.results (portClosedError .notOpen) hs ht rfl ha rfl rfl (by simp [hw])⟩
    · rw [execPing_sends (s := { h.block with events := evs }) (hcfg ▸ hwf) hp hid] at hstep
      exact ⟨_, advance_wait ha hstep, hwf, hcfg, huni, past, hids,
        .busy id rest [] _ _ hs ht ha rfl rfl (.inl ⟨rfl, rfl⟩) rfl (by simp [hw]) he⟩
  | busy id rest done left t hs ht ha hc hx hp hq hw he =>
    obtain ⟨s, hstep, hcfg', hat⟩ := ScanAt.event hs ht ha hc hx hp hq hw he
    refine ⟨_, advance_wait ha hstep, hwf, hcfg'.trans hcfg, huni, past, hids, hat⟩
  | answered id rest old r hs ht hr ha hk hp hw he =>
    rcases ScanRun.read_cases r hs ht with ⟨h', -⟩ | ⟨-, hrest, hs'⟩
    · simp [hk] at h'
    refine ⟨_, advance_read ha hr, hwf, hcfg, huni, past ++ [id], ?_, ?_⟩
    · simp [hids, ht, hrest]
    · exact .between hs' rfl (ready_iff.2 (.inr hp)) (by simp [hw, pingTraffic, hcfg]) he
  | lost id rest done left old r hs ht hr ha hk hq hw =>
    rcases ScanRun.read_cases r hs ht with ⟨-, hread⟩ | ⟨h', -⟩
    · refine ⟨_, advance_read ha hr, hwf, hcfg, huni, past, ?_, ?_⟩
      · simp [hids, hread]
      · exact .stopped id rest done left r (by simp [hread]) (by simp [hread, ht]) rfl hk hq hw
    · simp [hk] at h'
  | stopped id rest done left r hs ht ha hk hq hw =>
    exact ⟨h, advance_returned ha (by simp [ScanRun.next, hs, ht]), hwf, hcfg, huni, past, hids,
      .stopped id rest done left r hs ht ha hk hq hw⟩

theorem ScanInv.moves {cfg : Config} {before ids : List Byte} :
    ∀ (turns : List ScanTurn) {h : ScanSession}, ScanInv cfg before ids h → ∃ t, h.moves turns = .next t ∧ ScanInv cfg before ids t := by
  intro turns
  induction turns with
  | nil => intro h inv; exact ⟨h, rfl, inv⟩
  | cons turn turns ih =>
    intro h inv
    obtain ⟨h', hadv, inv'⟩ := inv.advance turn
    rw [ScanSession.moves, hadv]
    exact ih inv'

/-! ## The traffic of a scan -/

/-- R191. A scan of `lo .. hi` on an open, idle block with no other caller, however many moves it makes, under every
sequence of turns and whatever the line, the timer and the port do, during a PING or between two: it never stops the machine, and once it has returned the wire has grown by exactly
one six-byte PING packet for each id, in ascending order; or, where it stopped on PORT_CLOSED, by the packets of the
ids before the last one probed and the part of that one's packet sent before the port failed. -/
theorem scan_traffic {s : State} {lo hi : Nat} (hc : s.cfg.wf = true) (hp : s.phase = .idle) (hhi : hi ≤ 253)
    (he : ∀ e ∈ s.events, e.fromLine = true) (turns : List ScanTurn) :
    ∃ t, (scanOn lo hi s).moves turns = .next t ∧
      (t.returned = true →
        (t.run.stopped = none ∧ t.block.wireOut = s.wireOut ++ pingTraffic s.cfg (scanIds lo hi)) ∨
        (∃ r, t.run.stopped = some r ∧ r.kind = .portClosed ∧
          ∃ (past rest part left : List Byte) (id : Byte), scanIds lo hi = past ++ id :: rest ∧
            pingPacket s.cfg id = part ++ left ∧
            t.block.wireOut = s.wireOut ++ pingTraffic s.cfg past ++ part)) := by
  obtain ⟨t, hm, inv⟩ := (ScanInv.start (lo := lo) hc hp hhi he).moves turns
  refine ⟨t, hm, fun hret => ?_⟩
  obtain ⟨-, hcfg, -, past, hids, hat⟩ := inv
  simp only [ScanSession.returned, Bool.and_eq_true, Option.isNone_iff_eq_none] at hret
  obtain ⟨haw, hnext⟩ := hret
  cases hat with
  | between hs ha hp hw he =>
    have htodo : t.run.todo = [] := by
      cases htd : t.run.todo with
      | nil => rfl
      | cons id rest => simp [ScanRun.next, hs, htd] at hnext
    exact .inl ⟨hs, by rw [hw, hids, htodo, List.append_nil]⟩
  | presented id rest evs hs ht ha => simp [ha] at haw
  | busy id rest done left t hs ht ha => simp [ha] at haw
  | answered id rest old r hs ht hr ha => simp [ha] at haw
  | lost id rest done left old r hs ht hr ha => simp [ha] at haw
  | stopped id rest done left r hs ht ha hk hq hw =>
    exact .inr ⟨r, hs, hk, past, rest, done, left, id, by rw [hids, ht], by rw [← hcfg]; exact hq, hw⟩

end Sys2Proof.Machine
end

