-- ==== Sys2Proof/Laws/Values.lean ====
section
/-! SUPPORT. Little-endian values, slices, and the bits of the error byte (00_scope.md R15, 41_decoder.md R140). -/

namespace Sys2Proof.Machine

@[simp] theorem leBytes_length (v w : Nat) : (leBytes v w).length = w := by
  induction w generalizing v with
  | zero => rfl
  | succ w ih => simp [leBytes, ih]

@[simp] theorem leValue_nil : leValue [] = 0 := rfl

@[simp] theorem leValue_cons (b : Byte) (l : List Byte) : leValue (b :: l) = b.toNat + 256 * leValue l := rfl

/-- A slice that starts at 0 is a prefix. -/
theorem slice_zero (l : List Byte) (n : Nat) : slice l 0 n = l.take n := by simp [slice]

/-- The slice of a middle part. -/
theorem slice_append (a b c : List Byte) : slice (a ++ b ++ c) a.length (a.length + b.length) = b := by
  simp [slice, List.take_append]

/-- Looking up an id in the bytes of the values (42_commands.md R179). -/
theorem lookup_valueBytes {ids : List Byte} {w : Nat} {values : List (Byte × Nat)} {id : Byte} (h : id ∈ ids) :
    (valueBytes ids w values).lookup id = some (leBytes ((values.lookup id).getD 0) w) := by
  induction ids with
  | nil => simp at h
  | cons x ids ih =>
    simp only [valueBytes, List.map_cons, List.lookup_cons]
    by_cases hx : id = x
    · subst hx; simp
    · rw [show (id == x) = false by simpa using hx]
      exact ih (by simpa [hx] using h)

/-! ## The error byte -/

/-- The reserved bit is the one position no named flag has. -/
theorem reservedBit_spec (bits : ErrBits) (h : bits.toList.Nodup) :
    reservedBit bits ∉ bits.toList ∧ ∀ j : Fin 8, j ∉ bits.toList → j = reservedBit bits := by
  have h7 : bits.toList.toFinset.card = 7 := by
    rw [List.toFinset_card_of_nodup h]; rfl
  have hex : ∃ k : Fin 8, k ∉ bits.toList := by
    by_contra hall
    have : bits.toList.toFinset = Finset.univ := by
      ext k; simp; by_contra hk; exact hall ⟨k, hk⟩
    rw [this] at h7
    simp at h7
  obtain ⟨k, hk⟩ := hex
  have huniq : ∀ j : Fin 8, j ∉ bits.toList → j = k := by
    intro j hj
    by_contra hjk
    have h9 : (insert j (insert k bits.toList.toFinset)).card = 9 := by
      rw [Finset.card_insert_of_notMem (by simp [hjk, hj]), Finset.card_insert_of_notMem (by simpa using hk), h7]
    have := Finset.card_le_univ (insert j (insert k bits.toList.toFinset))
    simp [h9] at this
  have hmem : ∀ j : Fin 8, j ∈ ([0, 1, 2, 3, 4, 5, 6, 7] : List (Fin 8)) := by decide
  have hfind : ∃ m, (([0, 1, 2, 3, 4, 5, 6, 7] : List (Fin 8)).find? (fun k => decide (k ∉ bits.toList))) = some m := by
    rw [← Option.isSome_iff_exists, List.find?_isSome]
    exact ⟨k, hmem k, by simpa using hk⟩
  obtain ⟨m, hm⟩ := hfind
  have hr : reservedBit bits = m := by rw [reservedBit, hm]; rfl
  have hnot : m ∉ bits.toList := by simpa using List.find?_some hm
  rw [hr]
  exact ⟨hnot, fun j hj => (huniq j hj).trans (huniq m hnot).symm⟩

/-- Reading one bit of a byte with one bit set. -/
theorem byteBit_bitIf (i j : Fin 8) (on : Bool) : byteBit (bitIf i on) j = (on && decide (j = i)) := by
  revert i j on
  decide

theorem byteBit_or (a b : Byte) (i : Fin 8) : byteBit (a ||| b) i = (byteBit a i || byteBit b i) := by
  simp [byteBit]

/-- Two bytes with the same bits are equal. -/
theorem byte_ext {a b : Byte} (h : ∀ i : Fin 8, byteBit a i = byteBit b i) : a = b := by
  apply BitVec.eq_of_getLsbD_eq
  intro i hi
  exact h ⟨i, hi⟩

end Sys2Proof.Machine
end

