-- ==== Sys2Proof/Tests/Slice0.lean ====
section
/-! SUPPORT. The model's own tests: ill-formed instructions, packets written out from the spec's encodings, single steps
from 95_test_vectors.md (V<n> is its vector, P<n> its program), and a witness for the hypotheses of every statement. -/

namespace Sys2Proof.Tests

open Sys2Proof.Machine Sys2Proof.Claims

/-! ## Ill-formed instructions, one per check -/

/-- The smallest legal packet ceiling (00_scope.md R10). -/
def tight : Config := { Config.standard with maxPacketBytes := 7 }

theorem test_wf_ping_id : (Instr.ping 254).wf Config.standard = false := by decide
theorem test_wf_read_id : (Instr.read 254 0x38 2).wf Config.standard = false := by decide
theorem test_wf_read_width_low : (Instr.read 1 0x38 0).wf Config.standard = false := by decide
theorem test_wf_read_width_high : (Instr.read 1 0x38 245).wf Config.standard = false := by decide
theorem test_wf_read_fits : (Instr.read 1 0x38 1).wf tight = false := by decide
theorem test_wf_write_id : (Instr.write 255 0x2A [0]).wf Config.standard = false := by decide
theorem test_wf_write_data : (Instr.write 1 0x2A []).wf Config.standard = false := by decide
theorem test_wf_write_fits : (Instr.write 1 0x2A [0, 8]).wf tight = false := by decide
theorem test_wf_regWrite_id : (Instr.regWrite 255 0x2A [0]).wf Config.standard = false := by decide
theorem test_wf_regWrite_data : (Instr.regWrite 1 0x2A []).wf Config.standard = false := by decide
theorem test_wf_regWrite_fits : (Instr.regWrite 1 0x2A [0, 8]).wf tight = false := by decide
theorem test_wf_action_id : (Instr.action 255).wf Config.standard = false := by decide
theorem test_wf_reset_id : (Instr.reset 255).wf Config.standard = false := by decide
theorem test_wf_syncRead_id : (Instr.syncRead 255 []).wf Config.standard = false := by decide
theorem test_wf_syncRead_fits : (Instr.syncRead 254 [1, 2]).wf tight = false := by decide
theorem test_wf_syncWrite_ids : (Instr.syncWrite [] 0x2A 1 []).wf Config.standard = false := by decide
theorem test_wf_syncWrite_unicast : (Instr.syncWrite [254] 0x2A 1 [(254, [0])]).wf Config.standard = false := by decide
theorem test_wf_syncWrite_distinct :
    (Instr.syncWrite [3, 3] 0x2A 1 [(3, [0]), (3, [1])]).wf Config.standard = false := by decide
theorem test_wf_syncWrite_width_low : (Instr.syncWrite [3] 0x2A 0 [(3, [])]).wf Config.standard = false := by decide
theorem test_wf_syncWrite_width_high :
    (Instr.syncWrite [3] 0x2A 256 [(3, List.replicate 256 0)]).wf Config.standard = false := by decide
theorem test_wf_syncWrite_keys : (Instr.syncWrite [3] 0x2A 1 [(7, [0])]).wf Config.standard = false := by decide
theorem test_wf_syncWrite_lengths : (Instr.syncWrite [3] 0x2A 2 [(3, [0])]).wf Config.standard = false := by decide
theorem test_wf_syncWrite_fits : (Instr.syncWrite [3] 0x2A 1 [(3, [0])]).wf tight = false := by decide
theorem test_wf_config_bounds :
    { Config.standard with maxPacketBytes := 5 }.wf = false ∧
      { Config.standard with maxPacketBytes := 260 }.wf = false := by decide
theorem test_wf_config_codes :
    { Config.standard with instrCode := { InstrCodes.standard with read := 1 } }.wf = false := by decide
theorem test_wf_config_bits :
    { Config.standard with errBit := { ErrBits.standard with range := 0 } }.wf = false := by decide

/-! ## Packets written out from 30_encoding.md R70 to R85 -/

/-- V1: marker, id 1, length 0 + 2, code 0x01, 255 - (1 + 2 + 1) = 0xFB. -/
theorem test_decode_ping : decode Config.standard [0xFF, 0xFF, 0x01, 0x02, 0x01, 0xFB] = .ok (.ping 1) := by decide

/-- V3: the checksum of this PING is 0xFF. -/
theorem test_decode_ping_last_id : decode Config.standard [0xFF, 0xFF, 0xFD, 0x02, 0x01, 0xFF] = .ok (.ping 253) := by
  decide

/-- V5. -/
theorem test_decode_read :
    decode Config.standard [0xFF, 0xFF, 0x01, 0x04, 0x02, 0x2A, 0x02, 0xCC] = .ok (.read 1 0x2A 2) := by decide

/-- V18: the bytes 100, 0 are 0x64, 0x00. -/
theorem test_decode_write :
    decode Config.standard [0xFF, 0xFF, 0x03, 0x05, 0x03, 0x2A, 0x64, 0x00, 0x66] = .ok (.write 3 0x2A [0x64, 0x00]) := by
  decide

/-- V7: a WRITE to the broadcast id. -/
theorem test_decode_write_broadcast :
    decode Config.standard [0xFF, 0xFF, 0xFE, 0x04, 0x03, 0x28, 0x01, 0xD1] = .ok (.write 254 0x28 [0x01]) := by decide

/-- V8. -/
theorem test_decode_regWrite :
    decode Config.standard [0xFF, 0xFF, 0x01, 0x05, 0x04, 0x2A, 0xE8, 0x03, 0xE0]
      = .ok (.regWrite 1 0x2A [0xE8, 0x03]) := by decide

/-- V132: ACTION to device 1. -/
theorem test_decode_action : decode Config.standard [0xFF, 0xFF, 0x01, 0x02, 0x05, 0xF7] = .ok (.action 1) := by decide

/-- V11: RESET to the broadcast id. -/
theorem test_decode_reset : decode Config.standard [0xFF, 0xFF, 0xFE, 0x02, 0x06, 0xF9] = .ok (.reset 254) := by decide

/-- V13. -/
theorem test_decode_syncRead :
    decode Config.standard [0xFF, 0xFF, 0xFE, 0x06, 0x82, 0x38, 0x02, 0x01, 0x02, 0x3C]
      = .ok (.syncRead 254 [0x38, 0x02, 0x01, 0x02]) := by decide

/-- V12 (E2): `[X, 2, 3, 100,0, 7,200,0]` with X = 0x2A. -/
theorem test_decode_syncWrite :
    decode Config.standard [0xFF, 0xFF, 0xFE, 0x0A, 0x83, 0x2A, 0x02, 0x03, 0x64, 0x00, 0x07, 0xC8, 0x00, 0x12]
      = .ok (.syncWrite [3, 7] 0x2A 2 [(3, [0x64, 0x00]), (7, [0xC8, 0x00])]) := by decide

/-- V64 to V74: the verdicts and the failures of DecodeRequest. -/
theorem test_decodeRequest_verdicts :
    decodeRequest Config.standard [0xFF, 0xFF, 0x01, 0x02, 0x07, 0xF5] = .error (.verdict .illegalInstruction) ∧
    decodeRequest Config.standard [0xFF, 0xFF, 0x01, 0x04, 0x02, 0x38, 0x00, 0xC0] = .error (.verdict .badShape) ∧
    decodeRequest Config.standard [0xFF, 0xFF, 0xFE, 0x04, 0x02, 0x38, 0x02, 0xC1] = .error (.verdict .badBroadcast) ∧
    decodeRequest Config.standard [0xFF, 0xFF, 0x01, 0x07, 0x83, 0x2A, 0x02, 0x03, 0x64, 0x00, 0xE1]
      = .error (.verdict .badBroadcast) ∧
    decodeRequest Config.standard [0xFF, 0xFF, 0xFE, 0x0A, 0x83, 0x2A, 0x02, 0x03, 0x64, 0x00, 0x03, 0x01, 0x00, 0xDD]
      = .error (.verdict .badShape) ∧
    decodeRequest Config.standard [0xFF, 0xFF, 0xFE, 0x06, 0x83, 0x2A, 0x02, 0x03, 0x64, 0xE5]
      = .error (.verdict .badShape) ∧
    decodeRequest Config.standard [0xFF, 0xFF, 0xFE, 0x06, 0x82, 0x38, 0x02, 0x01, 0x02, 0x3C]
      = .error (.verdict .badBroadcast) ∧
    decodeRequest Config.standard [0xFF, 0xFF, 0x01, 0x02, 0x00, 0xFD] = .error (.failure .checksum) := by decide

/-- V22 to V35: the outcomes of the frame scan. -/
theorem test_frameScan :
    frameScan Config.standard [0xFF] = .short false ∧
    frameScan Config.standard [0xFF, 0xFF] = .short true ∧
    frameScan Config.standard [0xFF, 0xFF, 0x01, 0x02, 0x00] = .short true ∧
    frameScan Config.standard [0xFF, 0xFF, 0x01, 0x02, 0x00, 0xFD] = .ckFail 0 6 ∧
    frameScan Config.standard [0xFF, 0xFF, 0xFF, 0x01, 0x02, 0x00, 0xFC] = .frame 1 2 0 [] 1 7 ∧
    frameScan Config.standard [0xFF, 0xFF, 0x01, 0x00, 0xFF, 0xFF, 0x01, 0x02, 0x00, 0xFC] = .frame 1 2 0 [] 4 10 ∧
    frameScan Config.standard [0xFF, 0xFF, 0x01, 0xF7, 0x00] = .short false ∧
    frameScan Config.standard [0xFF, 0xFF, 0x01, 0x04, 0x04, 0xD2, 0x04, 0x20] = .frame 1 4 4 [0xD2, 0x04] 0 8 := by
  decide

/-- V40 to V44: the edge of the lookahead window. -/
theorem test_frameScan_window :
    frameScan Config.standard (List.replicate 251 0) = .short false ∧
    frameScan Config.standard (List.replicate 252 0) = .noSync ∧
    frameScan Config.standard (List.replicate 250 0 ++ [0xFF, 0xFF, 0x01, 0x02, 0x00, 0xFC]) = .frame 1 2 0 [] 250 256 ∧
    frameScan Config.standard (List.replicate 251 0 ++ [0xFF, 0xFF, 0x01, 0x02, 0x00, 0xFC]) = .noSync := by decide +kernel

/-- V14, V15 to V17: the framer's two refusals and the largest packet. -/
theorem test_encode_refusals :
    encodePacket Config.standard 255 .ping [] = .error .badId ∧
    encodePacket Config.standard 1 .write (0x2A :: List.replicate 243 0)
      = .ok ([0xFF, 0xFF, 0x01, 0xF6, 0x03, 0x2A] ++ List.replicate 243 0 ++ [0xDB]) ∧
    encodePacket Config.standard 1 .write (0x2A :: List.replicate 244 0) = .error .tooLong ∧
    encodePacket Config.standard 255 .write (0x2A :: List.replicate 244 0) = .error .badId := by decide +kernel

/-- V88, V89: the flags of an error byte. -/
theorem test_parseFlags :
    parseFlags ErrBits.standard 0x24 = { overheat := true, overload := true } ∧
    parseFlags ErrBits.standard 0x80 = { reserved7 := true } ∧ parseFlags ErrBits.standard 0 = {} := by decide

/-- The eight rows of the opcode table (8 bits each): id 0 and the shortest block of each shape (DESIGN CHOICE, assumption 11). -/
theorem test_decodeTableWord :
    decodeTableWord 8 0x01 = some (.ping 0) ∧ decodeTableWord 8 0x02 = some (.read 0 0 0) ∧
    decodeTableWord 8 0x03 = some (.write 0 0 [0]) ∧ decodeTableWord 8 0x04 = some (.regWrite 0 0 [0]) ∧
    decodeTableWord 8 0x05 = some (.action 0) ∧ decodeTableWord 8 0x06 = some (.reset 0) ∧
    decodeTableWord 8 0x82 = some (.syncRead 0 []) ∧ decodeTableWord 8 0x83 = some (.syncWrite [0] 0 0 [(0, [])]) ∧
    decodeTableWord 8 0x07 = none := by decide

/-! ## Single steps -/

/-- The state after `OPEN("P", 1000000, 50)`, its history left out. -/
def idle : State := { State.reset with phase := .idle, port := some "P", baud := some 1000000, timeout := some 50 }

/-- An open block waiting for the answer to a transaction, with `buf` received. -/
def waiting (t : Txn) (buf : List Byte) (events : List Event) : State :=
  { idle with phase := .rxWait, cur := some t, rxbuf := buf, events := events }

/-- An open block sending a request, with `queue` left. -/
def sendingState (t : Txn) (queue : List Byte) (events : List Event) : State :=
  { idle with phase := .tx, cur := some t, txq := queue, events := events }

def pingTxn : Txn := { cmd := .ping, id := 1, instr := some .ping, expect := true, width := none }
def readTxn : Txn := { cmd := .read, id := 1, instr := some .read, expect := true, width := some 2 }
def broadcastTxn : Txn := { cmd := .action, id := 254, instr := some .action, expect := false, width := none }
def transactTxn : Txn := { cmd := .transact, id := 1, instr := none, expect := true, width := none }

/-- The next state, where there is one. -/
def nextOf : Outcome → Option State
  | .next s => some s
  | .fault _ => none
  | .refused _ => none

/-- What a step left to send, and what it delivered. -/
def sent (o : Outcome) : Option (List Byte) := (nextOf o).map (·.txq)
def delivered (o : Outcome) : Option (List Result) := (nextOf o).map (·.results)

/-- V100, V104. -/
theorem test_ping : sent (exec (.ping 1) idle) = some [0xFF, 0xFF, 0x01, 0x02, 0x01, 0xFB] ∧
    delivered (exec (.ping 254) idle) = some [{ kind := .encoding, reason := some .badBroadcast }] := by decide

/-- V107: NOT_OPEN comes before BAD_ID. -/
theorem test_ping_closed :
    delivered (exec (.ping 255) State.reset) = some [{ kind := .portClosed, reason := some .notOpen }] := by decide

/-- V117, V116. -/
theorem test_read : sent (exec (.read 1 0x38 244) idle) = some [0xFF, 0xFF, 0x01, 0x04, 0x02, 0x38, 0xF4, 0xCC] ∧
    delivered (exec (.read 1 0x38 245) idle) = some [{ kind := .encoding, reason := some .badWidth }] := by decide

/-- V122, V125. -/
theorem test_write :
    sent (exec (.write 1 0x2A [0x00, 0x08]) idle) = some [0xFF, 0xFF, 0x01, 0x05, 0x03, 0x2A, 0x00, 0x08, 0xC4] ∧
    delivered (exec (.write 1 0x2A (List.replicate 244 0)) idle) = some [{ kind := .encoding, reason := some .tooLong }] := by
  decide +kernel

/-- V130. -/
theorem test_regWrite : sent (exec (.regWrite 1 0x2A [0xE8, 0x03]) idle)
    = some [0xFF, 0xFF, 0x01, 0x05, 0x04, 0x2A, 0xE8, 0x03, 0xE0] := by decide

/-- V131: a broadcast ACTION awaits nothing. -/
theorem test_action : (nextOf (exec (.action 254) idle)).map (fun s => (s.txq, s.cur))
    = some ([0xFF, 0xFF, 0xFE, 0x02, 0x05, 0xFA], some broadcastTxn) := by decide

/-- V133. -/
theorem test_reset : sent (exec (.reset 1) idle) = some [0xFF, 0xFF, 0x01, 0x02, 0x06, 0xF6] := by decide

/-- V141. -/
theorem test_syncRead : exec (.syncRead 254 [0x38, 0x02, 0x01, 0x02]) idle = .refused .syncReadUnspecified := rfl

/-- V134, with the data listed in the other order: the entries follow the ids. -/
theorem test_syncWrite : sent (exec (.syncWrite [3, 7] 0x2A 2 [(7, [0xC8, 0x00]), (3, [0x64, 0x00])]) idle)
    = some [0xFF, 0xFF, 0xFE, 0x0A, 0x83, 0x2A, 0x02, 0x03, 0x64, 0x00, 0x07, 0xC8, 0x00, 0x12] := by decide

/-- V138. -/
theorem test_syncWrite_missing : delivered (exec (.syncWrite [3, 7] 0x2A 2 [(3, [0x64, 0x00])]) idle)
    = some [{ kind := .encoding, reason := some .missingValue }] := by decide

/-- V126, V127. -/
theorem test_writeRegister :
    sent (execCommand (.writeRegister 1 0x2A 2048 2) idle)
      = some [0xFF, 0xFF, 0x01, 0x05, 0x03, 0x2A, 0x00, 0x08, 0xC4] ∧
    delivered (execCommand (.writeRegister 1 0x2A 65536 2) idle)
      = some [{ kind := .encoding, reason := some .valueRange }] := by decide

/-- E2, V140. -/
theorem test_syncWriteValues :
    sent (execCommand (.syncWriteValues [3, 7] 0x2A 2 [(3, 100), (7, 200)]) idle)
      = some [0xFF, 0xFF, 0xFE, 0x0A, 0x83, 0x2A, 0x02, 0x03, 0x64, 0x00, 0x07, 0xC8, 0x00, 0x12] ∧
    delivered (execCommand (.syncWriteValues [3, 7] 0x2A 1 [(3, 100), (7, 300)]) idle)
      = some [{ kind := .encoding, reason := some .valueRange }] := by decide

/-- V142, V143. -/
theorem test_transact :
    (nextOf (execCommand (.transact [0xFF, 0xFF, 0x01, 0x02, 0x01, 0xFB] true) idle)).map (·.cur)
      = some (some transactTxn) ∧
    delivered (execCommand (.transact [0xFF, 0xFF, 0x01, 0x02, 0x01, 0xFB, 0x00] true) idle)
      = some [{ kind := .encoding, reason := some .badPacket }] := by decide

/-- V145, V146. -/
theorem test_open_close :
    delivered (execCommand (.openPort "P" 1 1) idle) = some [{ kind := .encoding, reason := some .alreadyOpen }] ∧
    delivered (execCommand .closePort State.reset) = some [{ kind := .ok }] := by decide

/-- V109: the last byte of a reply with a device error and a value. -/
theorem test_read_reply :
    delivered (step (waiting readTxn [0xFF, 0xFF, 0x01, 0x04, 0x04, 0xD2, 0x04] [.rxByte 0x20]))
      = some [{ kind := .deviceError, flags := { overheat := true }, params := [0xD2, 0x04], value := some 1234 }] := by
  decide

/-- V110: a reply of the wrong size. -/
theorem test_read_reply_size : delivered (step (waiting readTxn [0xFF, 0xFF, 0x01, 0x03, 0x00, 0x08] [.rxByte 0xF3]))
    = some [{ kind := .malformed, params := [0x08] }] := by decide

/-- V119: a frame of another id is discarded and the wait goes on. -/
theorem test_other_id :
    (nextOf (step (waiting readTxn [0xFF, 0xFF, 0x02, 0x02, 0x00] [.rxByte 0xFB]))).map (fun s => (s.rxbuf, s.phase))
      = some ([], .rxWait) := by decide

/-- V142: TRANSACT gets the packet's bytes. -/
theorem test_transact_reply : delivered (step (waiting transactTxn [0xFF, 0xFF, 0x01, 0x02, 0x00] [.rxByte 0xFC]))
    = some [{ kind := .ok, raw := some [0xFF, 0xFF, 0x01, 0x02, 0x00, 0xFC] }] := by decide

/-- V111, V121: CHECKSUM at once, MALFORMED past the window. -/
theorem test_bad_replies :
    delivered (step (waiting readTxn [0xFF, 0xFF, 0x01, 0x04, 0x00, 0x00, 0x08] [.rxByte 0xF3]))
      = some [{ kind := .checksum }] ∧
    delivered (step (waiting readTxn (List.replicate 251 0) [.rxByte 0])) = some [{ kind := .malformed }] := by decide +kernel

/-- V112, V113: FRAMING when a packet began, TIMEOUT when none did. -/
theorem test_timeout :
    delivered (step (waiting readTxn [0xFF, 0xFF, 0x01, 0x04, 0x00] [.timeout])) = some [{ kind := .framing }] ∧
    delivered (step (waiting readTxn [0x00, 0x55] [.timeout])) = some [{ kind := .timeout }] := by decide

/-- V123: the last byte of a broadcast completes it. -/
theorem test_broadcast_done :
    (nextOf (step (sendingState broadcastTxn [0xFA] [.txAccept]))).map (fun s => (s.phase, s.wireOut, s.results))
      = some (.idle, [0xFA], [{ kind := .ok }]) := by decide

/-- V147: a byte received while transmitting is dropped. -/
theorem test_rx_in_tx : (nextOf (step (sendingState pingTxn [0xFF] [.rxByte 0xAA]))).map (fun s => (s.rxbuf, s.txEn))
    = some ([], true) := by decide

/-- V148: a fatal failure in a response wait. -/
theorem test_ioFail : (nextOf (step (waiting pingTxn [] [.ioFail]))).map (fun s => (s.phase, s.port, s.results))
    = some (.closed, none, [{ kind := .portClosed, reason := some .ioFail }]) := by decide

/-- V149: a command presented in a response wait is held. -/
theorem test_held :
    (nextOf (step (waiting readTxn [] [.cmd (.instr (.ping 1))]))).map (fun s => (s.held, s.txq, s.results))
      = some ([.instr (.ping 1)], [], []) := by decide

/-- V162: a damaged reply is faulted, not present. -/
theorem test_scan :
    (scan 0 2 [{ kind := .timeout }, { kind := .ok }, { kind := .checksum }]).found
      = { present := [1], faulted := [(2, .checksum)] } := by decide

/-- R191, from 95_test_vectors.md's packets: the first move of a scan presents the PING of its first id, and a scan of
one id whose device stays silent puts `FF FF 03 02 01 F9` on the wire and nothing else, and finds nothing. -/
theorem test_scanOn_presents :
    (match (scanOn 3 7 idle).advance .scan with
      | .next h => some (h.block.events, h.awaiting)
      | _ => none) = some ([.cmd (.instr (.ping 3))], some 0) := by decide

theorem test_scanOn_traffic :
    (match (scanOn 3 3 { idle with events := List.replicate 6 .txAccept ++ [.timeout] }).moves (List.replicate 10 .scan) with
      | .next h => some (h.block.wireOut, h.returned, h.run.found)
      | _ => none) = some ([0xFF, 0xFF, 0x03, 0x02, 0x01, 0xF9], true, { present := [], faulted := [] }) := by decide

/-- R150, R162: on the block's turn between two PINGs a failure of the port is taken before the next PING, which is then
answered with PORT_CLOSED(NOT_OPEN); the scan stops on it with nothing sent. -/
theorem test_scanOn_turns :
    (match (scanOn 3 7 { idle with events := [.ioFail] }).moves [.block, .scan, .scan, .scan] with
      | .next h => some (h.block.wireOut, h.run.stopped.map (·.kind), h.returned)
      | _ => none) = some ([], some .portClosed, true) := by decide

/-- A table word placed where the next step takes it (DESIGN CHOICE, assumption 12). -/
theorem test_withFetchWord : step (State.reset.withFetchWord 8 0x01) = exec (.ping 0) State.reset := rfl

/-! ## Witnesses: each shows states and operands that meet the hypotheses of the statement of its name together, for
every clause, at the ends of its range -/

/-- The smallest and the largest packet ceiling are legal. -/
theorem witness_configs : Config.standard.wf = true ∧ { Config.standard with maxPacketBytes := 6 }.wf = true ∧
    { Config.standard with maxPacketBytes := 259 }.wf = true ∧ { Config.standard with lookahead := 0 }.wf = true := by
  decide

theorem witness_DecodeOfEncodeGivesTheInstruction : Config.standard.wf = true ∧
    (Instr.ping 253).wf Config.standard = true ∧ (Instr.read 0 0xFF 244).wf Config.standard = true ∧
    (Instr.write 254 0 (List.replicate 243 0xFF)).wf Config.standard = true ∧
    (Instr.regWrite 254 0 [0]).wf Config.standard = true ∧ (Instr.action 254).wf Config.standard = true ∧
    (Instr.reset 254).wf Config.standard = true ∧
    (Instr.syncRead 254 (List.replicate 244 0)).wf Config.standard = true ∧
    (Instr.syncWrite [253, 0] 0xFF 120 [(253, List.replicate 120 1), (0, List.replicate 120 2)]).wf Config.standard
      = true := by decide +kernel

theorem witness_FramerOutputByteByByte : Config.standard.wf = true ∧
    encodePacket Config.standard 1 .read [0x38, 0x02] = .ok [0xFF, 0xFF, 0x01, 0x04, 0x02, 0x38, 0x02, 0xBE] := by decide

theorem witness_SyncMarkerEndsARun : (250 : Nat) ≤ Config.standard.lookahead ∧ Config.standard.wf = true ∧
    (254 : Byte) ≠ 255 ∧ (List.replicate 244 (0 : Byte)).length + 6 ≤ Config.standard.maxPacketBytes ∧
    frameScan Config.standard [0xFF, 0xFF, 0xFF, 0x01, 0x02, 0x00, 0xFC] = .frame 1 2 0 [] 1 7 := by decide +kernel

theorem witness_FrameBytesAreThePacketOfItsFields : Config.standard.wf = true ∧
    frameScan Config.standard [0x00, 0xFF, 0xFF, 0xFF, 0x01, 0x02, 0x00, 0xFC] = .frame 1 2 0 [] 2 8 := by decide

/-- Noise that ends in one 0xFF. -/
theorem witness_CleanNoiseIsSkipped : Config.standard.wf = true ∧
    ([0x00, 0xFF, 0x55, 0xFF] : List Byte).length ≤ Config.standard.lookahead ∧
    (∀ k : Nat, ¬ (([0x00, 0xFF, 0x55, 0xFF] : List Byte)[k]? = some (0xFF : Byte) ∧
      ([0x00, 0xFF, 0x55, 0xFF] : List Byte)[k + 1]? = some (0xFF : Byte))) ∧
    (1 : Byte) ≠ 255 ∧ ([] : List Byte).length + 6 ≤ Config.standard.maxPacketBytes := by
  refine ⟨by decide, by decide, ?_, by decide, by decide⟩
  intro k
  match k with
  | 0 | 1 | 2 | 3 => decide
  | k + 4 => simp

/-- The id, the instruction, a parameter and the checksum of one packet. -/
theorem witness_SingleByteCorruptionIsDetected : Config.standard.wf = true ∧
    (∀ k ∈ [2, 4, 5, 6, 7], ∃ q : List Byte, ∃ b : Byte, encodePacket Config.standard 1 .read [0x38, 0x02] = .ok q ∧
      k < q.length ∧ (k = 2 ∨ 4 ≤ k) ∧ q[k]? ≠ some b ∧ (k = 2 → b ≠ 255)) := by
  refine ⟨by decide, fun k hk => ⟨[0xFF, 0xFF, 0x01, 0x04, 0x02, 0x38, 0x02, 0xBE], 0, by decide, ?_⟩⟩
  fin_cases hk <;> decide

theorem witness_ScanLooksAtABoundedPrefix : Config.standard.wf = true := by decide

theorem witness_DecodeReportsTheScan :
    frameScan Config.standard [0xFF, 0xFF, 0x01, 0x02, 0x00, 0xFC] = .frame 1 2 0 [] 0 6 ∧
    frameScan Config.standard [0xFF, 0xFF, 0x01, 0x02, 0x00, 0xFD] = .ckFail 0 6 ∧
    frameScan Config.standard [0xFF, 0xFF] = .short true ∧ frameScan Config.standard [] = .short false ∧
    frameScan { Config.standard with lookahead := 0 } [0x00, 0x00] = .noSync := by decide

theorem witness_InstructionByteDecodesToItsInstruction : Config.standard.wf = true ∧
    Config.standard.instrCode = { ping := 0x01, read := 0x02, write := 0x03, regWrite := 0x04, action := 0x05,
                                  reset := 0x06, syncRead := 0x82, syncWrite := 0x83 } := by decide

/-- One request of every instruction; the verdicts and failures are in `test_decodeRequest_verdicts`. -/
theorem witness_DecodedRequestIsAnInstruction : Config.standard.wf = true ∧
    decodeRequest Config.standard [0xFF, 0xFF, 0x01, 0x02, 0x01, 0xFB] = .ok ⟨1, .ping, []⟩ ∧
    decodeRequest Config.standard [0xFF, 0xFF, 0x01, 0x04, 0x02, 0x38, 0x02, 0xBE] = .ok ⟨1, .read, [0x38, 0x02]⟩ ∧
    decodeRequest Config.standard [0xFF, 0xFF, 0xFE, 0x04, 0x03, 0x28, 0x01, 0xD1] = .ok ⟨254, .write, [0x28, 0x01]⟩ ∧
    decodeRequest Config.standard [0xFF, 0xFF, 0x01, 0x05, 0x04, 0x2A, 0xE8, 0x03, 0xE0]
      = .ok ⟨1, .regWrite, [0x2A, 0xE8, 0x03]⟩ ∧
    decodeRequest Config.standard [0xFF, 0xFF, 0xFE, 0x02, 0x05, 0xFA] = .ok ⟨254, .action, []⟩ ∧
    decodeRequest Config.standard [0xFF, 0xFF, 0x01, 0x02, 0x06, 0xF6] = .ok ⟨1, .reset, []⟩ ∧
    decodeRequest Config.standard [0xFF, 0xFF, 0x01, 0x02, 0x82, 0x7A] = .ok ⟨1, .syncRead, []⟩ ∧
    decodeRequest Config.standard [0xFF, 0xFF, 0xFE, 0x0A, 0x83, 0x2A, 0x02, 0x03, 0x64, 0x00, 0x07, 0xC8, 0x00, 0x12]
      = .ok ⟨254, .syncWrite, [0x2A, 0x02, 0x03, 0x64, 0x00, 0x07, 0xC8, 0x00]⟩ := by decide

theorem witness_LittleEndianBytesAndValues : (0 : Nat) < 2 ∧ (1 : Nat) < 2 := by decide

/-- FlagByteRecoversTheErrorByte, ParserReadsEachFlagsOwnBit, DeviceErrorIffSomeFlag: two profiles. -/
theorem witness_flag_profiles : ErrBits.standard.toList.Nodup ∧
    (⟨7, 6, 5, 4, 3, 2, 1⟩ : ErrBits).toList.Nodup := by decide

theorem witness_ResetMeetsTheBlockInvariant : Config.standard.wf = true := by decide

theorem witness_StepRunsThePresentedCommand :
    State.reset.ready = true ∧ idle.ready = true ∧
    ({ idle with events := [.cmd (.instr (.ping 1))] } : State).events = .cmd (.instr (.ping 1)) :: [] ∧
    ({ idle with events := [.reoffer 0], held := [.closePort] } : State).held[0]? = some .closePort ∧
    decodeTableWordFor idle.cfg 8 0x83 = some (.syncWrite [0] 0 0 [(0, [])]) ∧ idle.events = [] := by decide

theorem witness_BusyBlockHoldsCommands :
    (waiting readTxn [] [.cmd .closePort]).busy = true ∧ (sendingState pingTxn [0xFF] [.reoffer 0]).busy = true := by
  decide

theorem witness_ClosedBlockAnswersNotOpen : State.reset.phase = .closed ∧
    (∀ port baud timeout, Command.instr (.ping 255) ≠ .openPort port baud timeout) ∧
    Command.instr (.ping 255) ≠ .closePort := ⟨rfl, by simp, by simp⟩

/-- PingSendsItsRequest, ActionAndResetSendTheirRequests, ReadSendsItsRequest: the ends of the ranges. -/
theorem witness_requests : idle.cfg.wf = true ∧ idle.phase = .idle ∧ (0 : Byte).toNat ≤ 253 ∧ (253 : Byte).toNat ≤ 253 ∧
    (254 : Byte).toNat ≤ 254 ∧ (1 : Nat) ≤ idle.cfg.maxPacketBytes - 6 ∧ (244 : Nat) ≤ idle.cfg.maxPacketBytes - 6 ∧
    8 ≤ idle.cfg.maxPacketBytes := by decide

theorem witness_WritesSendTheirRequests : idle.phase = .idle ∧ (254 : Byte).toNat ≤ 254 ∧
    (List.replicate 243 (0 : Byte)) ≠ [] ∧ (List.replicate 243 (0 : Byte)).length + 7 ≤ idle.cfg.maxPacketBytes := by
  decide +kernel

/-- Two devices; the data is listed in the other order and holds one id too many. -/
theorem witness_SyncWriteSendsOnePacket : idle.phase = .idle ∧ goodIds [253, 0] ∧ (1 : Nat) ≤ 2 ∧ (2 : Nat) ≤ 255 ∧
    allBytesGiven [253, 0] 2 [(0, [1, 2]), (9, []), (253, [3, 4])] ∧
    8 + ([253, 0] : List Byte).length * (2 + 1) ≤ idle.cfg.maxPacketBytes := by
  refine ⟨rfl, ⟨by decide, by decide, by decide⟩, by decide, by decide, ?_, by decide⟩
  intro id hid
  fin_cases hid <;> exact ⟨_, rfl, rfl⟩

theorem witness_SyncReadIsRefusedOnAnOpenBlock : idle.phase = .idle ∧ idle.cfg.wf = true ∧ (254 : Byte) ≠ 255 ∧
    ([0x38, 0x02, 0x01, 0x02] : List Byte).length + 6 ≤ idle.cfg.maxPacketBytes := by decide

/-- ControlCommandsCheckTheirId, OpenAndCloseLatchAndRelease: the two ready phases, and a busy block. -/
theorem witness_ready_phases : idle.phase = .idle ∧ State.reset.phase = .closed ∧
    (sendingState pingTxn [0x01] []).busy = true := by decide

/-- The clauses of RegisterCommandsCheckInOrder, at the values where they meet. -/
theorem witness_RegisterCommandsCheckInOrder : idle.phase = .idle ∧
    ((253 : Byte).toNat ≤ 253 ∧ idle.cfg.maxPacketBytes - 6 < 245) ∧
    (let s := { idle with cfg := tight }
     s.phase = .idle ∧ 1 ≤ s.cfg.maxPacketBytes - 6 ∧ s.cfg.maxPacketBytes < 8) ∧
    ((254 : Byte) ≠ 255 ∧ (List.replicate 244 (0 : Byte)) ≠ [] ∧
      idle.cfg.maxPacketBytes < (List.replicate 244 (0 : Byte)).length + 7) := by decide +kernel

/-- The clauses of SyncWriteChecksInOrder and SyncWriteOfValuesIsSyncWriteOfBytes, at the values where they meet. -/
theorem witness_SyncWriteChecksInOrder : idle.phase = .idle ∧ (∃ id ∈ ([253, 254] : List Byte), 253 < id.toNat) ∧
    ((∀ id ∈ ([3, 3] : List Byte), id.toNat ≤ 253) ∧ ¬ ([3, 3] : List Byte).Nodup) ∧ goodIds [253] ∧
    ¬ allBytesGiven [253] 1 [(253, [0, 0])] ∧
    (allBytesGiven [253] 1 [(253, [0])] ∧
      ({ idle with cfg := tight } : State).cfg.maxPacketBytes < 8 + ([253] : List Byte).length * (1 + 1)) ∧
    (∃ id ∈ ([7] : List Byte), ([(3, 100)] : List (Byte × Nat)).lookup id = none) ∧
    (∀ id ∈ ([7] : List Byte), ([(7, 256)] : List (Byte × Nat)).lookup id = some 256) ∧ (256 : Nat) ^ 1 ≤ 256 ∧
    (∀ id ∈ ([7] : List Byte), ([(7, 255)] : List (Byte × Nat)).lookup id = some 255) ∧ 255 < (256 : Nat) ^ 1 := by
  refine ⟨rfl, by decide, by decide, ⟨by decide, by decide, by decide⟩, ?_, ⟨?_, by decide⟩, by decide, by decide,
    by decide, by decide, by decide⟩
  · intro h
    obtain ⟨bytes, hb, hl⟩ := h 253 (by simp)
    cases hb
    simp at hl
  · intro id hid
    fin_cases hid
    exact ⟨_, rfl, rfl⟩

theorem witness_TransactSendsOneWholePacket : idle.phase = .idle ∧
    frameScan idle.cfg [0xFF, 0xFF, 0x01, 0x02, 0x07, 0xF5] = .frame 1 2 7 [] 0 6 ∧
    frameScan idle.cfg [0xFF, 0xFF, 0x01, 0x02, 0x01, 0xFB, 0x00] = .frame 1 2 1 [] 0 6 := by decide

/-- WriteRegisterIsWriteOfTheValue: the largest value of a width and the next one. -/
theorem witness_WriteRegisterIsWriteOfTheValue : idle.phase = .idle ∧ (254 : Byte) ≠ 255 ∧ (0 : Nat) < 1 ∧
    65535 < (256 : Nat) ^ 2 ∧ (256 : Nat) ^ 2 ≤ 65536 := by decide

/-- AcceptanceFrame: a command that starts a transaction, one that fails, and OPEN. -/
theorem witness_AcceptanceFrame : idle.ready = true ∧ (nextOf (execCommand (.instr (.ping 1)) idle)).isSome = true ∧
    (nextOf (execCommand (.instr (.ping 255)) idle)).isSome = true ∧
    (nextOf (execCommand (.openPort "P" 1 1) State.reset)).isSome = true := by decide

/-- A queue of two bytes, the last byte of a request with an answer, and that of a broadcast. -/
theorem witness_TransmitterTakesTheQueueByteByByte :
    (sendingState pingTxn [0x01, 0xFB] [.txAccept]).txq = 0x01 :: [0xFB] ∧
    (sendingState pingTxn [0xFB] [.txAccept]).cur = some pingTxn ∧ pingTxn.expect = true ∧
    (sendingState broadcastTxn [0xFA] [.txAccept]).cur = some broadcastTxn ∧ broadcastTxn.expect = false := by decide

/-- BytesReceivedOutsideAWait and TimeoutOutsideAWaitChangesNothing: one state for each phase. -/
theorem witness_phases : (sendingState pingTxn [0x01] [.rxByte 0]).phase = .tx ∧ State.reset.phase = .closed ∧
    idle.phase = .idle ∧ idle.phase ≠ .rxWait ∧ idle.phase ≠ .tx ∧ (sendingState pingTxn [] [.txAccept]).txq = [] := by
  decide

/-- EvaluationIsItsPseudocode and ExpiryReportsFramingOrTimeout: a response wait. -/
theorem witness_wait : (waiting readTxn [0xFF, 0xFF] [.timeout]).phase = .rxWait ∧
    (waiting readTxn [0xFF, 0xFF] [.timeout]).cur = some readTxn ∧
    frameScan Config.standard [0xFF, 0xFF] = .short true ∧ frameScan Config.standard [] ≠ .short true := by decide

/-- An awaited packet for TRANSACT, for READ at its width and at another, and for PING. -/
theorem witness_AwaitedStatusPacketIsTheResult :
    frameScan Config.standard ([0xFF, 0xFF, 0x01, 0x04, 0x04, 0xD2, 0x04] ++ [0x20])
      = .frame readTxn.id 4 4 [0xD2, 0x04] 0 8 ∧ readTxn.cmd = .read ∧
    readTxn.width = some ([0xD2, 0x04] : List Byte).length ∧
    frameScan Config.standard ([0xFF, 0xFF, 0x01, 0x02, 0x00] ++ [0xFC]) = .frame readTxn.id 2 0 [] 0 6 ∧
    readTxn.width ≠ some ([] : List Byte).length ∧ transactTxn.cmd = .transact ∧ transactTxn.id = 1 ∧
    pingTxn.cmd ≠ .transact ∧ pingTxn.cmd ≠ .read ∧ pingTxn.id = 1 := by decide

theorem witness_IoFailureClosesTheBlock :
    (waiting pingTxn [] [.ioFail]).phase ≠ .closed ∧ ({ idle with events := [.ioFail] } : State).phase ≠ .closed ∧
    ({ State.reset with events := [.ioFail] } : State).phase = .closed := by decide

/-- A response wait meets the invariant. -/
theorem witness_inv_waiting : (waiting readTxn [0xFF] [.rxByte 0xFF]).Inv where
  cfgWf := by decide
  busyIffCur := by decide
  txqIffTx := by decide
  txqBound := by decide
  portIffOpen := by decide
  rxbufEmpty := by decide
  curLegal t h := by cases h; decide
  waitOpen _ := ⟨⟨readTxn, rfl, rfl⟩, by decide⟩

/-- A broadcast being sent meets the invariant. -/
theorem witness_inv_broadcast : (sendingState broadcastTxn [0xFA] [.txAccept]).Inv where
  cfgWf := by decide
  busyIffCur := by decide
  txqIffTx := by decide
  txqBound := by decide
  portIffOpen := by decide
  rxbufEmpty := by decide
  curLegal t h := by cases h; decide
  waitOpen h := by cases h

/-- An open block with a SYNC_READ next meets the invariant. -/
theorem witness_inv_idle : ({ idle with events := [.cmd (.instr (.syncRead 254 []))] } : State).Inv where
  cfgWf := by decide
  busyIffCur := by decide
  txqIffTx := by decide
  txqBound := by decide
  portIffOpen := by decide
  rxbufEmpty := by decide
  curLegal t h := by cases h
  waitOpen h := by cases h

/-- EveryStepKeepsTheBlockInvariant, EveryAcceptedCommandIsAnsweredOnce, SafeStatesNeverFault: such states step on, and
the last one is refused. -/
theorem witness_inv_steps : (nextOf (step (waiting readTxn [0xFF] [.rxByte 0xFF]))).isSome = true ∧
    (nextOf (step (sendingState broadcastTxn [0xFA] [.txAccept]))).isSome = true ∧
    (nextOf (step { idle with events := [.cmd (.instr (.syncRead 254 []))] })) = none := by decide

/-- HistoriesGrowByOne, OnlyOpenCloseAndFailureWriteThePort, NothingIsEnqueuedWhileBusy: next states, one of them on a
busy block. -/
theorem witness_next_states :
    (nextOf (step (sendingState pingTxn [0x01, 0xFB] [.txAccept]))).isSome = true ∧
    (sendingState pingTxn [0x01, 0xFB] [.txAccept]).busy = true ∧
    (nextOf (step { idle with events := [.cmd .closePort] })).isSome = true := by decide

theorem witness_ResidualBytesDoNotReachATransaction : idle.phase = .idle ∧
    (nextOf (execCommand (.instr (.ping 1)) idle)).map (·.phase) = some .tx := by decide

theorem witness_BroadcastsNeverWait : (sendingState broadcastTxn [0xFA] [.txAccept]).cur = some broadcastTxn ∧
    broadcastTxn.cmd ≠ .transact ∧ broadcastTxn.id = 254 := by decide

theorem witness_WholeRequestGoesOnTheWire :
    let s := sendingState pingTxn [0x01, 0xFB] (List.replicate 2 .txAccept)
    s.phase = .tx ∧ s.cur = some pingTxn ∧ s.txq ≠ [] ∧ s.events = List.replicate s.txq.length .txAccept ++ [] := by
  decide

/-- A reply from the awaited id and one from another. -/
theorem witness_WholeReplyIsTakenByteByByte : ∀ id ∈ ([1, 2] : List Byte),
    let s := waiting readTxn [] ((packet id 0 [0, 8]).map Event.rxByte)
    s.cfg.wf = true ∧ s.phase = .rxWait ∧ s.rxbuf = [] ∧ s.cur = some readTxn ∧ id ≠ 255 ∧
      ([0, 8] : List Byte).length + 6 ≤ s.cfg.maxPacketBytes ∧ s.events = (packet id 0 [0, 8]).map Event.rxByte ++ [] := by
  decide

theorem witness_ReadTransactionReturnsTheValue :
    let s := { idle with
      events := Event.cmd (.instr (.read 253 0x38 2)) :: List.replicate 8 Event.txAccept
        ++ (packet 253 0 [0, 8]).map Event.rxByte ++ [Event.timeout] }
    s.cfg.wf = true ∧ s.phase = .idle ∧ (253 : Byte).toNat ≤ 253 ∧ 1 ≤ ([0, 8] : List Byte).length ∧
      ([0, 8] : List Byte).length ≤ s.cfg.maxPacketBytes - 6 ∧ 8 ≤ s.cfg.maxPacketBytes ∧
      s.events = Event.cmd (.instr (.read 253 0x38 ([0, 8] : List Byte).length)) :: List.replicate 8 Event.txAccept
        ++ (packet 253 0 [0, 8]).map Event.rxByte ++ [Event.timeout] := by
  decide

/-- The top of the id range. -/
theorem witness_ScanSortsItsProbes : (252 : Nat) ≤ 253 ∧
    ([{ kind := .timeout }, { kind := .checksum }] : List Result).length = 253 + 1 - 252 ∧
    ∀ r ∈ ([{ kind := .timeout }, { kind := .checksum }] : List Result), r.kind ≠ .encoding ∧ r.kind ≠ .portClosed := by
  decide

theorem witness_ScanStopsOnAClosedPort : ([{ kind := .timeout }] : List Result).length < 5 + 1 - 0 ∧
    (∀ r ∈ ([{ kind := .timeout }] : List Result), r.kind ≠ .encoding ∧ r.kind ≠ .portClosed) ∧
    ((portClosedError .ioFail).kind = .encoding ∨ (portClosedError .ioFail).kind = .portClosed) := by decide

end Sys2Proof.Tests
end

/-! PROOFS. The statements of 10_state.md: the flag byte (R33), the two histories (R28, R30), the codes and views a host
reads (R27, R32, R34), and the state after reset (R37). -/

namespace Sys2Proof.Machine

/-! ## The flags and the bits of the error byte -/

/-- Every flag, the reserved one last. -/
def allFlags : List Flag :=
  [.voltage, .angleLimit, .overheat, .range, .checksumDev, .overload, .instruction, .reserved7]

theorem mem_allFlags (f : Flag) : f ∈ allFlags := by cases f <;> decide

/-- A flag set is determined by the flags in it. -/
theorem FlagSet.eq_of_has_eq {F G : FlagSet} (h : ∀ f, F.has f = G.has f) : F = G := by
  cases F
  cases G
  simp only [FlagSet.mk.injEq]
  exact ⟨h .voltage, h .angleLimit, h .overheat, h .range, h .checksumDev, h .overload, h .instruction, h .reserved7⟩

theorem has_parseFlags (bits : ErrBits) (e : Byte) (f : Flag) :
    (parseFlags bits e).has f = byteBit e (flagBit bits f) := by cases f <;> rfl

theorem map_flagBit_allFlags (bits : ErrBits) : allFlags.map (flagBit bits) = bits.toList ++ [reservedBit bits] := rfl

/-- No two flags share a bit, the reserved one included (30_encoding.md R88). -/
theorem flagBit_injective {bits : ErrBits} (h : bits.toList.Nodup) : Function.Injective (flagBit bits) := by
  have hnodup : (allFlags.map (flagBit bits)).Nodup := by
    rw [map_flagBit_allFlags, ← List.concat_eq_append]
    exact h.concat (reservedBit_spec bits h).1
  intro f g hfg
  exact List.inj_on_of_nodup_map hnodup (mem_allFlags f) (mem_allFlags g) hfg

/-- Every bit of the error byte stands for a flag (30_encoding.md R88). -/
theorem flagBit_surjective {bits : ErrBits} (h : bits.toList.Nodup) : Function.Surjective (flagBit bits) := by
  intro k
  have hk : k ∈ allFlags.map (flagBit bits) := by
    rw [map_flagBit_allFlags, List.mem_append, List.mem_singleton]
    exact Classical.or_iff_not_imp_left.2 ((reservedBit_spec bits h).2 k)
  obtain ⟨f, -, hf⟩ := List.mem_map.1 hk
  exact ⟨f, hf⟩

/-- A bit of the flag byte is set when some flag in the set stands at it. -/
theorem byteBit_flagByte (bits : ErrBits) (F : FlagSet) (k : Fin 8) :
    byteBit (flagByte bits F) k = allFlags.any fun f => F.has f && decide (k = flagBit bits f) := by
  simp [flagByte, byteBit_or, byteBit_bitIf, allFlags, FlagSet.has, Bool.or_assoc]

/-- At a flag's own bit the flag byte says whether the flag is in the set (10_state.md R33). -/
theorem byteBit_flagByte_flagBit {bits : ErrBits} (h : bits.toList.Nodup) (F : FlagSet) (f : Flag) :
    byteBit (flagByte bits F) (flagBit bits f) = F.has f := by
  rw [byteBit_flagByte, Bool.eq_iff_iff]
  simp [(flagBit_injective h).eq_iff, mem_allFlags]

theorem flagByte_parseFlags {bits : ErrBits} (h : bits.toList.Nodup) (e : Byte) :
    flagByte bits (parseFlags bits e) = e := by
  refine byte_ext fun k => ?_
  obtain ⟨f, rfl⟩ := flagBit_surjective h k
  rw [byteBit_flagByte_flagBit h, has_parseFlags]

theorem parseFlags_flagByte {bits : ErrBits} (h : bits.toList.Nodup) (F : FlagSet) :
    parseFlags bits (flagByte bits F) = F :=
  FlagSet.eq_of_has_eq fun f => by rw [has_parseFlags, byteBit_flagByte_flagBit h]

/-- Settles O17: no two flags share a bit and every bit has a flag, so the flag byte and the parser undo each other. -/
theorem flagByteRecoversTheErrorByte : Obligations.FlagByteRecoversTheErrorByte := by
  unfold Obligations.FlagByteRecoversTheErrorByte
  intro bits h
  refine ⟨fun F => ?_, flagByte_parseFlags h, parseFlags_flagByte h⟩
  have hbit := byteBit_flagByte_flagBit h F
  refine ⟨hbit .voltage, hbit .angleLimit, hbit .overheat, hbit .range, hbit .checksumDev, hbit .overload,
    hbit .instruction, fun k hk => ?_⟩
  rw [(reservedBit_spec bits h).2 k hk]
  exact hbit .reserved7

/-! ## The histories of the wire and of the results -/

/-- The results of `s'` are those of `s`, or those and one more (10_state.md R30). -/
def AtMostOneResult (s s' : State) : Prop := s'.results = s.results ∨ ∃ r, s'.results = s.results ++ [r]

theorem AtMostOneResult.of_append {s s' : State} {r : Result} (h : s'.results = s.results ++ [r]) :
    AtMostOneResult s s' := .inr ⟨r, h⟩

/-- Accepting a command writes no byte to the line and delivers at most one result. -/
theorem CommandDone.histories {s s' : State} {c : Command} (h : CommandDone s c (.next s')) :
    s'.wireOut = s.wireOut ∧ AtMostOneResult s s' := by
  cases h with
  | answered c r => exact ⟨rfl, .of_append (deliver_results s r)⟩
  | started c t q => exact ⟨rfl, .inl rfl⟩
  | opened port baud timeout => exact ⟨rfl, .of_append rfl⟩
  | closed => exact ⟨rfl, .of_append rfl⟩

/-- Taking an event writes a byte to the line only when it is `tx_accept` in TX, and then the first queued one
(10_state.md R28). -/
theorem EventDone.wireOut {s s' : State} {e : Event} (h : EventDone s e (.next s')) :
    s'.wireOut = s.wireOut ∨ ∃ b queue, s.phase = .tx ∧ e = .txAccept ∧ s.txq = b :: queue ∧
      s'.wireOut = s.wireOut ++ [b] := by
  cases h with
  | presented c o hr hc => exact .inl hc.histories.1
  | reoffered k c o hr hk hc => exact .inl hc.histories.1
  | sent b q hp hq => exact .inr ⟨b, q, hp, rfl, hq, rfl⟩
  | sentLast b t hp hq => exact .inr ⟨b, [], hp, rfl, hq, rfl⟩
  | sentAll b t hp hq => exact .inr ⟨b, [], hp, rfl, hq, rfl⟩
  | held | stays | ignored | residual | waiting | completed | lost => exact .inl rfl

/-- Taking an event delivers at most one result (10_state.md R30). -/
theorem EventDone.results {s s' : State} {e : Event} (h : EventDone s e (.next s')) : AtMostOneResult s s' := by
  cases h with
  | presented c o hr hc => exact hc.histories.2
  | reoffered k c o hr hk hc => exact hc.histories.2
  | sentAll b t => exact .of_append (complete_results _ okResult)
  | completed e r => exact .of_append (complete_results s r)
  | lost =>
    unfold AtMostOneResult
    rw [closeOnIoFail_results]
    split
    · exact .inr ⟨_, rfl⟩
    · exact .inl rfl
  | held | stays | ignored | sent | sentLast | residual | waiting => exact .inl rfl

/-- Settles O50, by the cases of the event taken. -/
theorem historiesGrowByOne : Obligations.HistoriesGrowByOne := by
  unfold Obligations.HistoriesGrowByOne
  intro s s' hstep
  cases he : s.events with
  | nil =>
    rw [step_nil he] at hstep
    cases hstep
    exact ⟨.inl rfl, .inl rfl⟩
  | cons e rest =>
    have hdone := takeEvent_done e { s with events := rest }
    rw [← step_cons he, hstep] at hdone
    refine ⟨hdone.wireOut.imp_right ?_, hdone.results⟩
    rintro ⟨b, queue, hp, rfl, hq, hw⟩
    exact ⟨b, rest, queue, hp, rfl, hq, hw⟩

/-! ## Codes and views -/

/-- Codes 8 to 15 are never produced (10_state.md R34). -/
theorem ResultKind.code_lt (k : ResultKind) : k.code.toNat < 8 := by cases k <;> decide

theorem txEn_iff {s : State} : s.txEn = true ↔ s.phase = .tx := by simp [State.txEn]

/-- Settles O20: the codes are the table of R34, and each view is its phase condition. -/
theorem hostVisibleCodesAndViews : Obligations.HostVisibleCodesAndViews := by
  unfold Obligations.HostVisibleCodesAndViews
  exact ⟨⟨rfl, rfl, rfl, rfl, rfl, rfl, rfl, rfl, ResultKind.code_lt⟩,
    fun _ => ⟨isOpen_iff, busy_iff, ready_iff, txEn_iff⟩⟩

/-! ## Reset -/

@[simp] theorem resetWith_txEn (cfg : Config) : (State.resetWith cfg).txEn = false := rfl
@[simp] theorem resetWith_isOpen (cfg : Config) : (State.resetWith cfg).isOpen = false := rfl
@[simp] theorem resetWith_busy (cfg : Config) : (State.resetWith cfg).busy = false := rfl
@[simp] theorem resetWith_ready (cfg : Config) : (State.resetWith cfg).ready = true := rfl

/-- Settles O21, field by field and view by view. -/
theorem resetLeavesTheListedValues : Obligations.ResetLeavesTheListedValues := by
  unfold Obligations.ResetLeavesTheListedValues
  intro cfg
  simp

end Sys2Proof.Machine

/-! PROOFS. The statements of 30_encoding.md: the shapes ShapeOK accepts (R77 to R85), and the requests PING, READ,
WRITE, REG_WRITE, ACTION and RESET send on an open, idle block (R78 to R83). -/

namespace Sys2Proof

open Sys2Proof.Claims

/-! ## The shapes without entries -/

theorem shapeOk_empty_iff {op : Opcode} (h : op = .ping ∨ op = .action ∨ op = .reset) (p : List Byte) :
    shapeOk op p = true ↔ p = [] := by
  rcases h with rfl | rfl | rfl <;> simp [shapeOk]

theorem shapeOk_read_iff (p : List Byte) :
    shapeOk .read p = true ↔ ∃ addr w : Byte, p = [addr, w] ∧ 1 ≤ w.toNat := by
  simp only [shapeOk, Bool.and_eq_true, decide_eq_true_eq]
  constructor
  · rintro ⟨hlen, hw⟩
    obtain ⟨addr, w, rfl⟩ := List.length_eq_two.1 hlen
    exact ⟨addr, w, rfl, hw⟩
  · rintro ⟨addr, w, rfl, hw⟩
    exact ⟨rfl, hw⟩

/-- An address and at least one data byte are two bytes or more. -/
theorem shapeOk_write_iff {op : Opcode} (h : op = .write ∨ op = .regWrite) (p : List Byte) :
    shapeOk op p = true ↔ ∃ (addr : Byte) (data : List Byte), p = addr :: data ∧ data ≠ [] := by
  have hlen : shapeOk op p = decide (2 ≤ p.length) := by rcases h with rfl | rfl <;> rfl
  rw [hlen, decide_eq_true_eq]
  constructor
  · intro h2
    match p, h2 with
    | addr :: d :: data, _ => exact ⟨addr, d :: data, rfl, List.cons_ne_nil d data⟩
  · rintro ⟨addr, data, rfl, hne⟩
    have := List.length_pos_iff.2 hne
    rw [List.length_cons]
    omega

/-! ## The entries of a SYNC_WRITE -/

/-- A block whose length is a multiple of `w + 1` is the bytes of entries of width `w` (30_encoding.md R84). -/
theorem exists_entryBytes_eq {w : Nat} : ∀ (n : Nat) (block : List Byte), block.length = n * (w + 1) →
    ∃ es : List (Byte × List Byte), block = entryBytes es ∧ ∀ e ∈ es, e.2.length = w := by
  intro n
  induction n with
  | zero =>
    intro block h
    rw [Nat.zero_mul] at h
    exact ⟨[], List.length_eq_zero_iff.1 h, by simp⟩
  | succ n ih =>
    intro block h
    rw [Nat.succ_mul] at h
    cases block with
    | nil => simp at h
    | cons id more =>
      rw [List.length_cons] at h
      obtain ⟨es, hes, hw⟩ := ih (more.drop w) (by rw [List.length_drop]; omega)
      refine ⟨(id, more.take w) :: es, by rw [entryBytes_cons, ← hes, List.take_append_drop], ?_⟩
      simp only [List.mem_cons, forall_eq_or_imp]
      exact ⟨by rw [List.length_take]; omega, hw⟩

/-- The id of entry `j` is the byte at `j * (w + 1)` (41_decoder.md R131). -/
theorem map_getD_entryBytes {w : Nat} {es : List (Byte × List Byte)} (h : ∀ e ∈ es, e.2.length = w) :
    (List.range es.length).map (fun j => (entryBytes es).getD (j * (w + 1)) 0) = es.map Prod.fst := by
  induction es with
  | nil => rfl
  | cons e es ih =>
    simp only [List.mem_cons, forall_eq_or_imp] at h
    obtain ⟨he, hes⟩ := h
    have hnext : ∀ j, (entryBytes (e :: es)).getD ((j + 1) * (w + 1)) 0 = (entryBytes es).getD (j * (w + 1)) 0 := by
      intro j
      have hj : (j + 1) * (w + 1) = e.2.length + j * (w + 1) + 1 := by rw [he, Nat.succ_mul]; omega
      rw [entryBytes_cons, hj, List.getD_cons_succ, List.getD_append_right _ _ _ _ (Nat.le_add_right ..),
        Nat.add_sub_cancel_left]
    rw [List.length_cons, List.range_succ_eq_map, List.map_cons, List.map_map, List.map_cons, ← ih hes]
    congr 1
    · simp
    · exact List.map_congr_left fun j _ => hnext j

/-- The id bytes ShapeOK reads off a SYNC_WRITE block are the ids of its entries (41_decoder.md R131). -/
theorem syncEntryIds_entryBytes {w : Nat} {es : List (Byte × List Byte)} (addr wByte : Byte)
    (h : ∀ e ∈ es, e.2.length = w) : syncEntryIds w (addr :: wByte :: entryBytes es) = es.map Prod.fst := by
  have hn : ((addr :: wByte :: entryBytes es).length - 2) / (w + 1) = es.length := by
    rw [List.length_cons, List.length_cons, Nat.add_sub_cancel (m := 2), entryBytes_length h,
      Nat.mul_div_cancel _ (Nat.succ_pos w)]
  rw [syncEntryIds, hn, ← map_getD_entryBytes h]
  refine List.map_congr_left fun j _ => ?_
  rw [Nat.add_comm, List.getD_cons_succ, List.getD_cons_succ]

/-- On a block of entries, ShapeOK judges the width, the ids, and that there is an entry at all. -/
theorem shapeOk_syncWrite_entryBytes {addr w : Byte} {es : List (Byte × List Byte)}
    (h : ∀ e ∈ es, e.2.length = w.toNat) :
    shapeOk .syncWrite (addr :: w :: entryBytes es) = true ↔ 1 ≤ w.toNat ∧ goodIds (es.map Prod.fst) := by
  have hpos : w.toNat + 1 ≤ es.length * (w.toNat + 1) ↔ es ≠ [] := by
    rw [← List.length_pos_iff]
    exact le_mul_iff_one_le_left (Nat.succ_pos _)
  simp [shapeOk, goodIds, syncEntryIds_entryBytes addr w h, entryBytes_length h, hpos, and_assoc]

/-- SYNC_WRITE: the block is cut into entries, and on entries the check is the rule's (30_encoding.md R84). -/
theorem shapeOk_syncWrite_iff (p : List Byte) :
    shapeOk .syncWrite p = true ↔
      ∃ (addr w : Byte) (es : List (Byte × List Byte)), 1 ≤ w.toNat ∧ goodIds (es.map Prod.fst) ∧
        (∀ e ∈ es, e.2.length = w.toNat) ∧ p = addr :: w :: entryBytes es := by
  constructor
  · intro h
    match p with
    | [] => simp [shapeOk] at h
    | [_] => simp [shapeOk] at h
    | addr :: w :: block =>
      have hdvd : w.toNat + 1 ∣ block.length := by
        simp only [shapeOk, Bool.and_eq_true, decide_eq_true_eq] at h
        exact Nat.dvd_of_mod_eq_zero h.1.1.2
      obtain ⟨es, rfl, hes⟩ := exists_entryBytes_eq _ block (Nat.div_mul_cancel hdvd).symm
      obtain ⟨hw, hids⟩ := (shapeOk_syncWrite_entryBytes hes).1 h
      exact ⟨addr, w, es, hw, hids, hes, rfl⟩
  · rintro ⟨addr, w, es, hw, hids, hes, rfl⟩
    exact (shapeOk_syncWrite_entryBytes hes).2 ⟨hw, hids⟩

/-- Settles O14, instruction by instruction. -/
theorem shapeCheckIsTheShapesOfTheRules : Obligations.ShapeCheckIsTheShapesOfTheRules := by
  unfold Obligations.ShapeCheckIsTheShapesOfTheRules
  intro p
  exact ⟨shapeOk_empty_iff (.inl rfl) p, shapeOk_empty_iff (.inr (.inl rfl)) p, shapeOk_empty_iff (.inr (.inr rfl)) p,
    shapeOk_read_iff p, shapeOk_write_iff (.inl rfl) p, shapeOk_write_iff (.inr rfl) p, rfl, shapeOk_syncWrite_iff p⟩

/-! ## The packet of the rules -/

/-- The framer's packet is the one the rules write out. Where the length byte wraps, the two sums differ by a multiple
of 256, which the checksum does not see (30_encoding.md R70, R73, R74). -/
theorem packetBytes_eq_packet (id b4 : Byte) (p : List Byte) : packetBytes id b4 p = packet id b4 p := by
  have hsum : byteSum (packetBody id b4 p) % 256
      = (id.toNat + (p.length + 2) + b4.toNat + (p.map BitVec.toNat).sum) % 256 := by
    rw [byteSum_eq_sum]
    simp only [packetBody, List.map_cons, List.sum_cons, BitVec.toNat_ofNat]
    omega
  simp [packetBytes_cons, packet, checksum, hsum]

/-- An id in a range is none of the ids above it. -/
theorem byte_ne_of_toNat_le {id b : Byte} {n : Nat} (h : id.toNat ≤ n) (hb : n < b.toNat) : id ≠ b := by
  rintro rfl
  exact Nat.not_lt.2 h hb

end Sys2Proof

namespace Sys2Proof.Machine

open Sys2Proof.Claims

/-! ## Requests sent on an open, idle block -/

/-- A check that does not fail is passed over. -/
theorem firstFailure_decide_cons {P : Prop} [Decidable P] (h : ¬ P) (r : Reason) (rest : List (Bool × Reason)) :
    firstFailure ((decide P, r) :: rest) = firstFailure rest := by
  rw [firstFailure_cons, decide_eq_false h]
  rfl

/-- On an idle block a typed command whose checks pass and whose packet fits starts its transaction
(42_commands.md R152, R153, R164). -/
theorem acceptCommand_sends {checks : List (Bool × Reason)} {cmd : TxnCmd} {op : Opcode} {id : Byte} {p : List Byte}
    {w : Option Nat} {s : State} (hs : s.phase = .idle) (hc : firstFailure checks = none) (hid : id ≠ 255)
    (hp : p.length + 6 ≤ s.cfg.maxPacketBytes) :
    acceptCommand checks (sendRequest cmd op id p w) s
      = .next (sending { typedTxn cmd op id with width := w } (packet id (s.cfg.instrCode.code op) p) s) := by
  rw [acceptCommand_pass hs hc, sendRequest_ok hid hp, packetBytes_eq_packet]
  rfl

/-- Settles O26: the PING of a scan is the typed transaction of the rule, since its id is not the broadcast id. -/
theorem pingSendsItsRequest : Obligations.PingSendsItsRequest := by
  unfold Obligations.PingSendsItsRequest
  intro s id hcfg hs hid
  have h254 : id ≠ 254 := byte_ne_of_toNat_le hid (by decide)
  rw [execPing_sends hcfg hs hid, pingPacket, packetBytes_eq_packet, typedTxn, decide_eq_true h254]
  rfl

/-- Settles O27: the one check passes for any id but 255, and the packet of six bytes always fits. -/
theorem actionAndResetSendTheirRequests : Obligations.ActionAndResetSendTheirRequests := by
  unfold Obligations.ActionAndResetSendTheirRequests
  intro s id hcfg hs hid
  have h255 : id ≠ 255 := byte_ne_of_toNat_le hid (by decide)
  have hchecks : firstFailure [(decide (id = 255), .badId)] = none := firstFailure_decide_cons h255 _ _
  have hfits := Config.wf.lower hcfg
  exact ⟨acceptCommand_sends hs hchecks h255 hfits, acceptCommand_sends hs hchecks h255 hfits⟩

/-- Settles O28: the three checks pass, and the packet has eight bytes whatever the width. -/
theorem readSendsItsRequest : Obligations.ReadSendsItsRequest := by
  unfold Obligations.ReadSendsItsRequest
  intro s id addr w _ hs hid hw hmax h8
  have h255 : id ≠ 255 := byte_ne_of_toNat_le hid (by decide)
  have h254 : id ≠ broadcastId := byte_ne_of_toNat_le hid (by decide)
  have hwidth : ¬ (w < 1 ∨ s.cfg.maxParams < w) := by
    rw [Config.maxParams]
    omega
  refine ⟨acceptCommand_sends hs ?_ h255 h8, rfl⟩
  rw [firstFailure_decide_cons h255, firstFailure_decide_cons h254, firstFailure_decide_cons hwidth, firstFailure_nil]

/-- What WRITE and REG_WRITE share: id and data pass their checks, and the packet is seven bytes and the data. -/
theorem writeRequest_sends (cmd : TxnCmd) (op : Opcode) {id addr : Byte} {data : List Byte} {s : State}
    (hs : s.phase = .idle) (hid : id.toNat ≤ 254) (hdata : data ≠ [])
    (hfits : data.length + 7 ≤ s.cfg.maxPacketBytes) :
    writeRequest cmd op id addr data s
      = .next (sending (typedTxn cmd op id) (packet id (s.cfg.instrCode.code op) (addr :: data)) s) := by
  have h255 : id ≠ 255 := byte_ne_of_toNat_le hid (by decide)
  refine acceptCommand_sends hs ?_ h255 (by rw [List.length_cons]; omega)
  rw [firstFailure_decide_cons h255, firstFailure_decide_cons hdata, firstFailure_nil]

/-- Settles O29, by what the two commands share. -/
theorem writesSendTheirRequests : Obligations.WritesSendTheirRequests := by
  unfold Obligations.WritesSendTheirRequests
  intro s id addr data hs hid hdata hfits
  exact ⟨writeRequest_sends .write .write hs hid hdata hfits,
    writeRequest_sends .regWrite .regWrite hs hid hdata hfits⟩

end Sys2Proof.Machine

/-! PROOFS. The statements of 40_framer.md on what Encode returns (R101, R102, R106) and what it refuses (R103,
R104). -/

namespace Sys2Proof

open Sys2Proof.Claims

/-! ## The bytes of a packet at their offsets -/

/-- The parameters stand unchanged from offset 5 on (40_framer.md R106). -/
theorem packet_getElem?_param {id b4 : Byte} {p : List Byte} {k : Nat} (hk : k < p.length) :
    (packet id b4 p)[5 + k]? = p[k]? := by
  have hk5 : 5 + k < (0xFF :: 0xFF :: id :: BitVec.ofNat 8 (p.length + 2) :: b4 :: p).length := by
    simp only [List.length_cons]
    omega
  rw [packet, List.getElem?_append_left hk5, Nat.add_comm 5 k]
  rfl

/-- The byte after the parameters is the checksum (40_framer.md R107). -/
theorem packet_getElem?_checksum (id b4 : Byte) (p : List Byte) :
    (packet id b4 p)[p.length + 5]? = some (BitVec.ofNat 8
      (255 - (id.toNat + (p.length + 2) + b4.toNat + (p.map BitVec.toNat).sum) % 256)) :=
  List.getElem?_concat_length

/-- The formula of 40_framer.md R102 gives a byte, so writing it as one loses nothing. -/
theorem checksumByte_toNat (n : Nat) : (BitVec.ofNat 8 (255 - n % 256)).toNat = 255 - n % 256 := by
  simp only [BitVec.toNat_ofNat]
  omega

/-- Settles O3: what Encode returns is the packet of the rules, and the ceiling keeps its length byte from wrapping. -/
theorem framerOutputByteByByte : Obligations.FramerOutputByteByByte := by
  unfold Obligations.FramerOutputByteByByte
  intro cfg id op params q hcfg hq
  obtain ⟨-, hfits, rfl⟩ := encodePacket_eq_ok hq
  have hmax := Config.wf.upper hcfg
  have hlen : (BitVec.ofNat 8 (params.length + 2)).toNat = params.length + 2 := lenByte_toNat (by omega)
  refine ⟨packetBytes_length _ _ _, ?_⟩
  rw [packetBytes_eq_packet]
  exact ⟨rfl, rfl, rfl, ⟨_, rfl, hlen, by omega, by omega⟩, rfl, fun _ => packet_getElem?_param,
    ⟨_, packet_getElem?_checksum _ _ _, checksumByte_toNat _⟩⟩

/-! ## What Encode refuses -/

/-- Id 255 is refused whether or not the packet is above the ceiling (40_framer.md R100, R104). -/
theorem encodePacket_badId {cfg : Config} {id : Byte} {op : Opcode} {p : List Byte} (hid : id = 255) :
    encodePacket cfg id op p = .error .badId := by
  rw [encodePacket, if_pos hid]

/-- Settles O4: id 255, another id above the ceiling, and the rest have one outcome each. -/
theorem framerRefusesBadIdThenTooLong : Obligations.FramerRefusesBadIdThenTooLong := by
  unfold Obligations.FramerRefusesBadIdThenTooLong
  intro cfg id op params
  by_cases hid : id = 255
  · subst hid
    rw [encodePacket_badId rfl]
    simp
  by_cases hfits : params.length + 6 ≤ cfg.maxPacketBytes
  · rw [encodePacket_ok hid hfits]
    simpa [hfits] using hid
  · have hlong : cfg.maxPacketBytes < params.length + 6 := Nat.lt_of_not_le hfits
    rw [encodePacket_tooLong hid hlong]
    simpa [hlong] using hid

end Sys2Proof

/-! PROOFS. The statements of 41_decoder.md on the frame scan (R121, R122), on Decode (R126), on the instruction decoder
(R130), and on the error-flag parser (R140, R142, R144). -/

namespace Sys2Proof

open Sys2Proof.Machine Sys2Proof.Claims

/-! ## Candidates -/

/-- A candidate whose length byte is implausible is dropped (41_decoder.md R123). -/
theorem scanCandidate_implausible {cfg : Config} {i : Nat} {id len : Byte} {body : List Byte} (hid : id ≠ 0xFF)
    (hlen : len.toNat < 2 ∨ cfg.maxPacketBytes < len.toNat + 4) : scanCandidate cfg i (id :: len :: body) = none := by
  rw [scanCandidate, if_neg hid]
  exact if_pos hlen

/-- A candidate with a plausible header that is not all there yet waits for more (41_decoder.md R121). -/
theorem scanCandidate_missing {cfg : Config} {i : Nat} {id len : Byte} {body : List Byte} (hid : id ≠ 0xFF)
    (hlen : ¬ (len.toNat < 2 ∨ cfg.maxPacketBytes < len.toNat + 4)) (hbody : body.length < len.toNat) :
    scanCandidate cfg i (id :: len :: body) = some (.short true) := by
  rw [scanCandidate, if_neg hid]
  exact (if_neg hlen).trans (if_pos hbody)

/-- No candidate with id 255 is a frame, under any configuration (41_decoder.md R122). -/
theorem scanCandidate_frame_id_ne {cfg : Config} {i : Nat} {rest : List Byte} {id len b4 : Byte} {p : List Byte}
    {start stop : Nat} (h : scanCandidate cfg i rest = some (.frame id len b4 p start stop)) : id ≠ 0xFF := by
  match rest with
  | [] => cases h
  | id' :: [] =>
    rw [scanCandidate] at h
    split at h <;> cases h
  | id' :: len' :: body =>
    rw [scanCandidate] at h
    split_ifs at h with hid
    all_goals cases h
    exact hid

/-- One turn of the scan at a marker: the candidate's outcome, or the rest of the scan when it is dropped. -/
theorem scanFrom_marker_getD {cfg : Config} {i : Nat} {rest : List Byte} (hi : i ≤ cfg.lookahead) :
    scanFrom cfg i (0xFF :: 0xFF :: rest) =
      (scanCandidate cfg i rest).getD (scanFrom cfg (i + 1) (0xFF :: rest)) := by
  rw [scanFrom_marker hi]
  cases scanCandidate cfg i rest <;> rfl

/-! ## Reading a buffer by its indices -/

theorem getD_append_length_add (pre l : List Byte) (k : Nat) : (pre ++ l).getD (pre.length + k) 0 = l.getD k 0 := by
  rw [List.getD_append_right _ _ _ _ (Nat.le_add_right ..), Nat.add_sub_cancel_left]

theorem slice_append_length_add (pre l : List Byte) (a b : Nat) :
    slice (pre ++ l) (pre.length + a) (pre.length + b) = slice l a b := by
  rw [slice, slice, List.take_length_add_append, List.drop_length_add_append]

/-- The checksum byte, the bytes it is over, and the parameters of a candidate with the length byte `n`, at their
offsets from its marker (41_decoder.md R121, R124). -/
theorem candidate_bytes_at_offsets (id len : Byte) (body : List Byte) {n : Nat} (hn : n ≠ 0) :
    (0xFF :: 0xFF :: id :: len :: body).getD (3 + n) 0 = body.getD (n - 1) 0 ∧
      slice (0xFF :: 0xFF :: id :: len :: body) 2 (3 + n) = id :: len :: body.take (n - 1) ∧
      slice (0xFF :: 0xFF :: id :: len :: body) 5 (3 + n) = (body.take (n - 1)).drop 1 := by
  obtain ⟨m, rfl⟩ := Nat.exists_eq_succ_of_ne_zero hn
  rw [Nat.add_comm]
  exact ⟨rfl, rfl, rfl⟩

/-! ## The loop of the rule, turn by turn

One equation per turn, each the counterpart of an equation of `scanFrom`. The buffer is cut at the index of the turn. -/

theorem scanLoop_past {cfg : Config} {buf : List Byte} {turns i : Nat} (hi : cfg.lookahead < i) :
    scanLoop cfg buf turns i = .noSync := by
  cases turns with
  | zero => rfl
  | succ turns => rw [scanLoop, if_pos hi]

theorem scanLoop_short {cfg : Config} {buf : List Byte} {turns i : Nat} (hi : i ≤ cfg.lookahead)
    (h : buf.length < i + 2) : scanLoop cfg buf (turns + 1) i = .short false := by
  rw [scanLoop, if_neg (Nat.not_lt.2 hi), if_pos h]

theorem scanLoop_skip {cfg : Config} {pre rest : List Byte} {b0 b1 : Byte} {turns : Nat}
    (hi : pre.length ≤ cfg.lookahead) (h : ¬ (b0 = 0xFF ∧ b1 = 0xFF)) :
    scanLoop cfg (pre ++ b0 :: b1 :: rest) (turns + 1) pre.length
      = scanLoop cfg (pre ++ b0 :: b1 :: rest) turns (pre.length + 1) := by
  have hbyte := getD_append_length_add pre (b0 :: b1 :: rest)
  have hmarker : ¬ ((pre ++ b0 :: b1 :: rest).getD pre.length 0 = 0xFF ∧
      (pre ++ b0 :: b1 :: rest).getD (pre.length + 1) 0 = 0xFF) := by
    rw [← Nat.add_zero pre.length, hbyte, Nat.add_zero, hbyte]
    exact h
  rw [scanLoop, if_neg (Nat.not_lt.2 hi), if_neg (by simp), if_neg hmarker]

/-- At a marker the loop judges its candidate as `scanCandidate` does, exit by exit (41_decoder.md R121 to R124). -/
theorem scanLoop_marker {cfg : Config} {pre rest : List Byte} {turns : Nat} (hi : pre.length ≤ cfg.lookahead) :
    scanLoop cfg (pre ++ 0xFF :: 0xFF :: rest) (turns + 1) pre.length
      = (scanCandidate cfg pre.length rest).getD
          (scanLoop cfg (pre ++ 0xFF :: 0xFF :: rest) turns (pre.length + 1)) := by
  have hbyte := getD_append_length_add pre (0xFF :: 0xFF :: rest)
  have hslice := slice_append_length_add pre (0xFF :: 0xFF :: rest)
  rw [scanLoop, if_neg (Nat.not_lt.2 hi), if_neg (by simp), if_pos ⟨hbyte 0, hbyte 1⟩]
  simp only [Nat.add_assoc, hbyte, hslice, List.length_append, Nat.add_lt_add_iff_left]
  match rest with
  | [] => rfl
  | id :: [] =>
    by_cases hid : id = 0xFF
    · rw [hid]
      rfl
    · rw [scanCandidate_id hid]
      exact if_neg hid
  | id :: len :: body =>
    simp only [List.length_cons, List.getD_cons_succ, List.getD_cons_zero]
    rw [if_neg (by omega)]
    by_cases hid : id = 0xFF
    · rw [if_pos hid, hid, scanCandidate_third, Option.getD_none]
    rw [if_neg hid, if_neg (by omega)]
    by_cases hlen : len.toNat < 2 ∨ cfg.maxPacketBytes < len.toNat + 4
    · rw [if_pos hlen, scanCandidate_implausible hid hlen, Option.getD_none]
    rw [if_neg hlen]
    by_cases hbody : body.length < len.toNat
    · rw [if_pos (by omega), scanCandidate_missing hid hlen hbody, Option.getD_some]
    obtain ⟨hck, hsum, hparams⟩ := candidate_bytes_at_offsets id len body (n := len.toNat) (by omega)
    rw [if_neg (by omega), scanCandidate_whole hid (by omega) (by omega) (by omega), hck, hsum, hparams, Nat.add_assoc]
    split <;> rfl

/-- The scan from an index on is the loop from it on, as long as the turns left reach past the window. -/
theorem scanFrom_eq_scanLoop {cfg : Config} {turns : Nat} : ∀ {pre l : List Byte},
    cfg.lookahead < pre.length + turns →
    scanFrom cfg pre.length l = scanLoop cfg (pre ++ l) turns pre.length := by
  induction turns with
  | zero =>
    intro pre l hpast
    rw [Nat.add_zero] at hpast
    rw [scanFrom_past l hpast, scanLoop_past hpast]
  | succ turns ih =>
    intro pre l h
    by_cases hpast : cfg.lookahead < pre.length
    · rw [scanFrom_past l hpast, scanLoop_past hpast]
    have hi : pre.length ≤ cfg.lookahead := Nat.le_of_not_lt hpast
    match l with
    | [] | [_] => rw [scanFrom_short hi (by simp), scanLoop_short hi (by simp)]
    | b0 :: b1 :: rest =>
      have hnext : scanFrom cfg (pre.length + 1) (b1 :: rest)
          = scanLoop cfg (pre ++ b0 :: b1 :: rest) turns (pre.length + 1) := by
        have hturns : cfg.lookahead < (pre ++ [b0]).length + turns := by
          rw [List.length_append, List.length_singleton]
          omega
        have hcut := ih (l := b1 :: rest) hturns
        rwa [List.length_append, List.length_singleton, List.append_assoc, List.singleton_append] at hcut
      by_cases hm : b0 = 0xFF ∧ b1 = 0xFF
      · obtain ⟨rfl, rfl⟩ := hm
        rw [scanFrom_marker_getD hi, scanLoop_marker hi, hnext]
      · rw [scanFrom_skip hi hm, scanLoop_skip hi hm, hnext]

/-- Settles O6: from index 0 the turns given are enough to pass the window. -/
theorem frameScanIsItsPseudocode : Obligations.FrameScanIsItsPseudocode := by
  unfold Obligations.FrameScanIsItsPseudocode
  intro cfg buf
  exact scanFrom_eq_scanLoop (pre := []) (by rw [List.length_nil]; omega)

/-! ## Runs of 0xFF -/

/-- In front of a third 0xFF the scan moves on by one byte (41_decoder.md R122). -/
theorem scanFrom_third {cfg : Config} {i : Nat} (rest : List Byte) (hi : i ≤ cfg.lookahead) :
    scanFrom cfg i (0xFF :: 0xFF :: 0xFF :: rest) = scanFrom cfg (i + 1) (0xFF :: 0xFF :: rest) := by
  rw [scanFrom_marker_getD hi, scanCandidate_third, Option.getD_none]

/-- The scan passes a run of 0xFF up to its last two bytes. -/
theorem scanFrom_run {cfg : Config} (rest : List Byte) {run : Nat} : ∀ {i : Nat}, i + run ≤ cfg.lookahead →
    scanFrom cfg i (List.replicate (run + 2) 0xFF ++ rest) = scanFrom cfg (i + run) (0xFF :: 0xFF :: rest) := by
  induction run with
  | zero => exact fun _ => rfl
  | succ run ih =>
    intro i h
    calc scanFrom cfg i (List.replicate (run + 3) 0xFF ++ rest)
      _ = scanFrom cfg (i + 1) (List.replicate (run + 2) 0xFF ++ rest) := scanFrom_third _ (by omega)
      _ = scanFrom cfg (i + 1 + run) (0xFF :: 0xFF :: rest) := ih (by omega)
      _ = scanFrom cfg (i + (run + 1)) (0xFF :: 0xFF :: rest) := by rw [Nat.add_assoc, Nat.add_comm 1]

/-- A run of 0xFF in front of a packet goes on into the packet's marker. -/
theorem replicate_append_marker (run : Nat) (rest : List Byte) :
    List.replicate run (0xFF : Byte) ++ 0xFF :: 0xFF :: rest = List.replicate (run + 2) 0xFF ++ rest := by
  rw [List.replicate_add, List.append_assoc]
  rfl

/-- A packet behind a run of 0xFF is found with its own marker (41_decoder.md R122). -/
theorem frameScan_run_packet {cfg : Config} {run : Nat} {id b4 : Byte} {p : List Byte} (t : List Byte)
    (hcfg : cfg.wf = true) (hrun : run ≤ cfg.lookahead) (hid : id ≠ 0xFF)
    (hp : p.length + 6 ≤ cfg.maxPacketBytes) :
    frameScan cfg (List.replicate run 0xFF ++ packetBytes id b4 p ++ t)
      = .frame id (BitVec.ofNat 8 (p.length + 2)) b4 p run (run + p.length + 6) := by
  rw [← scanFrom_packet t hcfg hrun hid hp, packetBytes_cons, List.append_assoc]
  simp only [List.cons_append]
  rw [replicate_append_marker, frameScan, scanFrom_run _ (by omega), Nat.zero_add]

/-- A frame the scan finds is the outcome of one of its candidates. -/
theorem exists_scanCandidate_of_scanFrom {cfg : Config} {id len b4 : Byte} {p : List Byte} {start stop : Nat}
    {l : List Byte} {i : Nat} (h : scanFrom cfg i l = .frame id len b4 p start stop) :
    ∃ j rest, scanCandidate cfg j rest = some (.frame id len b4 p start stop) := by
  fun_induction scanFrom cfg i l with
  | case1 | case2 | case3 | case4 | case5 => cases h
  | case6 i _ _ rest _ _ r hc => exact ⟨i, rest, h ▸ hc⟩
  | case7 _ _ _ _ _ _ _ ih => exact ih h
  | case8 _ _ _ _ _ _ ih => exact ih h

/-- Settles O7: the scan passes a run up to its last two bytes, and no candidate with id 255 is a frame. -/
theorem syncMarkerEndsARun : Obligations.SyncMarkerEndsARun := by
  unfold Obligations.SyncMarkerEndsARun
  refine ⟨fun cfg i rest hi => scanFrom_third rest hi, ?_, ?_⟩
  · intro cfg run id b4 params trailing hcfg hrun hid hp
    rw [← packetBytes_eq_packet]
    exact frameScan_run_packet trailing hcfg hrun hid hp
  · intro cfg buf id len b4 params start stop h
    obtain ⟨j, rest, hc⟩ := exists_scanCandidate_of_scanFrom h
    exact scanCandidate_frame_id_ne hc

/-! ## Decode -/

/-- Settles O12, outcome by outcome. -/
theorem decodeReportsTheScan : Obligations.DecodeReportsTheScan := by
  unfold Obligations.DecodeReportsTheScan
  intro cfg buf
  refine ⟨?_, ?_, ?_, ?_⟩
  · intro id len e params start stop h
    rw [decodeStatus, h]
  · intro start stop h
    rw [decodeStatus, h]
  · intro h
    rw [decodeStatus, h]
  · rintro (h | h) <;> rw [decodeStatus, h]

/-! ## The instruction decoder -/

theorem Opcode.mem_all (op : Opcode) : op ∈ Opcode.all := by cases op <;> decide

theorem decodeInstr_eq_some_iff {cfg : Config} (h : cfg.wf = true) {b : Byte} {op : Opcode} :
    decodeInstr cfg b = some op ↔ cfg.instrCode.code op = b :=
  ⟨code_of_decodeInstr, fun hb => hb ▸ decodeInstr_code h op⟩

/-- ILLEGAL is the verdict on the bytes that are no code, injective or not (41_decoder.md R130). -/
theorem decodeInstr_eq_none_iff {cfg : Config} {b : Byte} :
    decodeInstr cfg b = none ↔ ∀ op, cfg.instrCode.code op ≠ b := by
  simp [decodeInstr, Opcode.mem_all]

/-- The instruction decoder reads INSTR_CODE and no other argument. -/
theorem decodeInstr_congr {cfg cfg' : Config} (h : cfg.instrCode = cfg'.instrCode) (b : Byte) :
    decodeInstr cfg b = decodeInstr cfg' b := by
  rw [decodeInstr, decodeInstr, h]

/-- The bytes that are no code of the default profile (41_decoder.md R130). -/
theorem no_standard_code_iff (b : Byte) : (∀ op, InstrCodes.standard.code op ≠ b) ↔
    b.toNat = 0 ∨ (0x07 ≤ b.toNat ∧ b.toNat ≤ 0x81) ∨ 0x84 ≤ b.toNat := by
  have hlist : (∀ op, InstrCodes.standard.code op ≠ b) ↔ ∀ op ∈ Opcode.all, InstrCodes.standard.code op ≠ b :=
    ⟨fun h op _ => h op, fun h op => h op op.mem_all⟩
  rw [hlist]
  simp only [Opcode.all, List.forall_mem_cons, List.not_mem_nil, false_imp_iff, implies_true, and_true,
    InstrCodes.code, InstrCodes.standard]
  bv_omega

/-- Settles O13: codes are unique under a legal configuration, and the default profile is one. -/
theorem instructionByteDecodesToItsInstruction : Obligations.InstructionByteDecodesToItsInstruction := by
  unfold Obligations.InstructionByteDecodesToItsInstruction
  refine ⟨fun cfg b op h => decodeInstr_eq_some_iff h, fun cfg b => decodeInstr_eq_none_iff, fun cfg b h => ?_⟩
  have hstd : Config.standard.wf = true := by decide
  rw [decodeInstr_congr (cfg' := Config.standard) h, decodeInstr_eq_none_iff, decodeInstr_eq_some_iff hstd,
    decodeInstr_eq_some_iff hstd]
  exact ⟨no_standard_code_iff b, eq_comm, eq_comm⟩

end Sys2Proof

namespace Sys2Proof.Machine

/-! ## The error-flag parser -/

/-- Settles O18: each flag is read at its own bit, and RESERVED7 at the bit `reservedBit_spec` says is the one left. -/
theorem parserReadsEachFlagsOwnBit : Obligations.ParserReadsEachFlagsOwnBit := by
  unfold Obligations.ParserReadsEachFlagsOwnBit
  intro bits e h
  obtain ⟨hfree, honly⟩ := reservedBit_spec bits h
  exact ⟨rfl, rfl, rfl, rfl, rfl, rfl, rfl, reservedBit bits, hfree, honly, rfl⟩

theorem byteBit_zero (k : Fin 8) : byteBit 0 k = false := by simp [byteBit]

/-- Some flag is parsed exactly from a byte that is not zero: every bit stands for a flag (41_decoder.md R142). -/
theorem exists_has_parseFlags_iff {bits : ErrBits} (h : bits.toList.Nodup) (e : Byte) :
    (∃ f, (parseFlags bits e).has f = true) ↔ e ≠ 0 := by
  constructor
  · rintro ⟨f, hf⟩ rfl
    rw [has_parseFlags, byteBit_zero] at hf
    exact Bool.noConfusion hf
  · intro he
    by_contra hno
    refine he (byte_ext fun k => ?_)
    obtain ⟨f, rfl⟩ := flagBit_surjective h k
    rw [byteBit_zero, ← has_parseFlags, Bool.eq_false_iff]
    exact fun hf => hno ⟨f, hf⟩

theorem statusKind_eq_ok_iff (e : Byte) : statusKind e = .ok ↔ e = 0 := by
  by_cases he : e = 0 <;> simp [statusKind, he]

theorem statusKind_eq_deviceError_iff (e : Byte) : statusKind e = .deviceError ↔ e ≠ 0 := by
  by_cases he : e = 0 <;> simp [statusKind, he]

/-- Settles O19: the kind depends on the error byte alone, and a byte that is not zero has a bit, hence a flag. -/
theorem deviceErrorIffSomeFlag : Obligations.DeviceErrorIffSomeFlag := by
  unfold Obligations.DeviceErrorIffSomeFlag
  intro bits e params h
  exact ⟨statusKind_eq_deviceError_iff e, statusKind_eq_ok_iff e, (exists_has_parseFlags_iff h e).symm, rfl, rfl⟩

end Sys2Proof.Machine

/-! PROOFS. The statements of 42_commands.md: SYNC_READ (R180), OPEN and CLOSE (R167, R168), the value-level writes (R174,
R179), and the arbiter at the events of the line, the timer and the port (R154 to R162, R165, R172). -/

namespace Sys2Proof.Machine

open Sys2Proof.Claims

/-! ## The operand checks -/

/-- A check that fails is the first failure. -/
theorem firstFailure_decide_of {P : Prop} [Decidable P] (h : P) (r : Reason) (rest : List (Bool × Reason)) :
    firstFailure ((decide P, r) :: rest) = some r := by
  rw [firstFailure_cons, decide_eq_true h]
  rfl

/-- On an idle block a failed check is an ENCODING result and changes nothing else (60_exceptions.md R201, R211). -/
theorem acceptCommand_rejects {checks : List (Bool × Reason)} {body : State → Outcome} {s : State} {r : Reason}
    (hs : s.phase = .idle) (hr : firstFailure checks = some r) :
    acceptCommand checks body s = .next (rejected r s) :=
  acceptCommand_fail hs hr

/-! ## writeRegister -/

theorem leValue_leBytes (v w : Nat) : leValue (leBytes v w) = v % 256 ^ w := by
  induction w generalizing v with
  | zero => rw [leBytes, leValue_nil, pow_zero, Nat.mod_one]
  | succ w ih =>
    have hbyte : (BitVec.ofNat 8 v).toNat = v % 256 := BitVec.toNat_ofNat v 8
    rw [leBytes, leValue_cons, ih, hbyte, pow_succ', Nat.mod_mul]

/-- A value that fits its width is recovered from its bytes (00_scope.md R15). -/
theorem leValue_leBytes_of_lt {v w : Nat} (h : v < 256 ^ w) : leValue (leBytes v w) = v := by
  rw [leValue_leBytes, Nat.mod_eq_of_lt h]

/-- Settles O37: the three checks in order, and past them WRITE of the value's bytes. -/
theorem writeRegisterIsWriteOfTheValue : Obligations.WriteRegisterIsWriteOfTheValue := by
  unfold Obligations.WriteRegisterIsWriteOfTheValue
  intro s id addr v w hs
  refine ⟨fun hid => ?_, fun hid hw => ?_, fun hid hw hv => ?_, fun hid hw hv => ?_⟩
  · exact acceptCommand_rejects hs (firstFailure_decide_of hid _ _)
  · refine acceptCommand_rejects hs ?_
    rw [firstFailure_decide_cons hid, firstFailure_decide_of hw]
  · refine acceptCommand_rejects hs ?_
    rw [firstFailure_decide_cons hid, firstFailure_decide_cons (Nat.not_lt.2 hw), firstFailure_decide_of hv]
  · refine ⟨leBytes v w, leBytes_length v w, leValue_leBytes_of_lt hv, acceptCommand_pass hs ?_⟩
    rw [firstFailure_decide_cons hid, firstFailure_decide_cons (Nat.not_lt.2 hw),
      firstFailure_decide_cons (Nat.not_le.2 hv), firstFailure_nil]

/-! ## syncWrite on values -/

theorem someBadEntryId_iff {ids : List Byte} : someBadEntryId ids = true ↔ ∃ id ∈ ids, 253 < id.toNat := by
  simp [someBadEntryId]

theorem someBadEntryId_eq_false {ids : List Byte} (h : ∀ id ∈ ids, id.toNat ≤ 253) : someBadEntryId ids = false := by
  rw [Bool.eq_false_iff, Ne, someBadEntryId_iff]
  rintro ⟨id, hid, hbad⟩
  exact Nat.not_lt.2 (h id hid) hbad

theorem someValueMissing_iff {ids : List Byte} {values : List (Byte × Nat)} :
    someValueMissing ids values = true ↔ ∃ id ∈ ids, values.lookup id = none := by
  simp [someValueMissing]

section GivenValues
variable {ids : List Byte} {values : List (Byte × Nat)} {value : Byte → Nat}
  (hv : ∀ id ∈ ids, values.lookup id = some (value id))
include hv

theorem someValueMissing_eq_false : someValueMissing ids values = false := by
  rw [Bool.eq_false_iff, Ne, someValueMissing_iff]
  rintro ⟨id, hid, hnone⟩
  exact Option.some_ne_none _ ((hv id hid).symm.trans hnone)

theorem someValueTooLarge_iff {w : Nat} : someValueTooLarge ids w values = true ↔ ∃ id ∈ ids, 256 ^ w ≤ value id := by
  simp only [someValueTooLarge, List.any_eq_true, decide_eq_true_eq]
  refine exists_congr fun id => and_congr_right fun hid => ?_
  rw [hv id hid, Option.getD_some]

theorem someValueTooLarge_eq_false {w : Nat} (h : ∀ id ∈ ids, value id < 256 ^ w) :
    someValueTooLarge ids w values = false := by
  rw [Bool.eq_false_iff, Ne, someValueTooLarge_iff hv]
  rintro ⟨id, hid, hlarge⟩
  exact Nat.not_lt.2 hlarge (h id hid)

theorem valueBytes_eq_map {w : Nat} :
    valueBytes ids w values = ids.map (fun id => (id, leBytes (value id) w)) := by
  refine List.map_congr_left fun id hid => ?_
  rw [hv id hid, Option.getD_some]

end GivenValues

/-- The checks of the ids that SYNC_WRITE and syncWrite on values begin with (42_commands.md R178, R179). -/
def idChecks (ids : List Byte) (rest : List (Bool × Reason)) : List (Bool × Reason) :=
  (decide (ids = []), .emptyIds) :: (someBadEntryId ids, .badId) :: (decide (¬ ids.Nodup), .dupId) :: rest

section IdChecks
variable {ids : List Byte} (rest : List (Bool × Reason))

theorem firstFailure_idChecks_empty (h : ids = []) : firstFailure (idChecks ids rest) = some .emptyIds :=
  firstFailure_decide_of h _ _

theorem firstFailure_idChecks_badId (h : ∃ id ∈ ids, 253 < id.toNat) :
    firstFailure (idChecks ids rest) = some .badId := by
  have hne : ids ≠ [] := by
    obtain ⟨id, hid, -⟩ := h
    exact List.ne_nil_of_mem hid
  rw [idChecks, firstFailure_decide_cons hne, someBadEntryId_iff.2 h]
  rfl

theorem firstFailure_idChecks_dupId (hle : ∀ id ∈ ids, id.toNat ≤ 253) (h : ¬ ids.Nodup) :
    firstFailure (idChecks ids rest) = some .dupId := by
  have hne : ids ≠ [] := by
    rintro rfl
    exact h List.nodup_nil
  rw [idChecks, firstFailure_decide_cons hne, someBadEntryId_eq_false hle, firstFailure_cons, if_neg Bool.false_ne_true,
    firstFailure_decide_of h]

theorem firstFailure_idChecks_good (h : goodIds ids) : firstFailure (idChecks ids rest) = firstFailure rest := by
  obtain ⟨hne, hle, hnodup⟩ := h
  rw [idChecks, firstFailure_decide_cons hne, someBadEntryId_eq_false hle, firstFailure_cons, if_neg Bool.false_ne_true,
    firstFailure_decide_cons (not_not.2 hnodup)]

end IdChecks

/-- syncWrite on values begins with the checks of the ids (42_commands.md R179). -/
theorem execCommand_syncWriteValues (ids : List Byte) (addr : Byte) (w : Nat) (values : List (Byte × Nat)) (s : State) :
    execCommand (.syncWriteValues ids addr w values) s =
      acceptCommand (idChecks ids [(decide (w < 1 ∨ 255 < w), .badWidth), (someValueMissing ids values, .missingValue),
        (someValueTooLarge ids w values, .valueRange)]) (execSyncWrite ids addr w (valueBytes ids w values)) s := rfl

/-- Settles O38: the checks of the ids, then the width, then the values, and past them SYNC_WRITE of the values'
bytes. -/
theorem syncWriteOfValuesIsSyncWriteOfBytes : Obligations.SyncWriteOfValuesIsSyncWriteOfBytes := by
  unfold Obligations.SyncWriteOfValuesIsSyncWriteOfBytes
  intro s ids addr w values hs
  rw [execCommand_syncWriteValues]
  refine ⟨fun h => ?_, fun h => ?_, fun hle h => ?_, fun hids hw => ?_, fun hids hlow hhigh h => ?_,
    fun value hids hlow hhigh hv => ⟨fun h => ?_, fun h => ?_⟩⟩
  · exact acceptCommand_rejects hs (firstFailure_idChecks_empty _ h)
  · exact acceptCommand_rejects hs (firstFailure_idChecks_badId _ h)
  · exact acceptCommand_rejects hs (firstFailure_idChecks_dupId _ hle h)
  · refine acceptCommand_rejects hs ((firstFailure_idChecks_good _ hids).trans ?_)
    exact firstFailure_decide_of (by omega) _ _
  · refine acceptCommand_rejects hs ((firstFailure_idChecks_good _ hids).trans ?_)
    rw [firstFailure_decide_cons (by omega), someValueMissing_iff.2 h]
    rfl
  · refine acceptCommand_rejects hs ((firstFailure_idChecks_good _ hids).trans ?_)
    rw [firstFailure_decide_cons (by omega), someValueMissing_eq_false hv, (someValueTooLarge_iff hv).2 h]
    rfl
  · rw [← valueBytes_eq_map hv]
    refine acceptCommand_pass hs ((firstFailure_idChecks_good _ hids).trans ?_)
    rw [firstFailure_decide_cons (by omega), someValueMissing_eq_false hv, someValueTooLarge_eq_false hv h]
    rfl

/-! ## Status packets in a response wait -/

/-- The result of the model is the one the rule writes out (42_commands.md R165, R172). -/
theorem statusResult_eq_statusAnswer (cfg : Config) (t : Txn) (e : Byte) (p raw : List Byte) :
    statusResult cfg.errBit t e p raw = statusAnswer cfg t e p raw := by
  cases hcmd : t.cmd with
  | read =>
    by_cases hw : t.width = some p.length
    · simp [statusResult, statusAnswer, hcmd, hw, interpret, statusKind]
    · simp [statusResult, statusAnswer, hcmd, hw, Ne.symm hw, interpret]
  | _ => simp [statusResult, statusAnswer, hcmd, interpret, statusKind]

/-- Evaluation when the first frame found is the awaited one (42_commands.md R159). -/
theorem evaluate_awaited {s : State} {t : Txn} {len e : Byte} {p : List Byte} {start stop : Nat} (hc : s.cur = some t)
    (hf : frameScan s.cfg s.rxbuf = .frame t.id len e p start stop) :
    evaluate s = .next (finished (statusAnswer s.cfg t e p (slice s.rxbuf start stop)) s) := by
  rw [evaluate_eq, hf]
  simp only [hc, if_true, acceptStatus, statusResult_eq_statusAnswer]
  rfl

/-- A failure of the line in a response wait completes the transaction with nothing but its kind. -/
theorem enterFailure_lineFailure_rxWait {s : State} (h : s.phase = .rxWait) (k : ResultKind) :
    enterFailure (lineFailure k) s = finished { kind := k } s :=
  enterFailure_rxWait _ h

/-- A byte received in a response wait is appended and evaluated (42_commands.md R158). -/
theorem step_rxByte_rxWait {s : State} {b : Byte} {rest : List Event} (h : s.phase = .rxWait)
    (he : s.events = .rxByte b :: rest) :
    step s = evaluate { s with rxbuf := s.rxbuf ++ [b], events := rest } := by
  rw [step_cons he, takeEvent]
  simp only [onRxByte, h]

/-- Settles O43: the model's evaluation, at a transaction in flight, outcome by outcome of the scan. -/
theorem evaluationIsItsPseudocode : Obligations.EvaluationIsItsPseudocode := by
  unfold Obligations.EvaluationIsItsPseudocode
  refine ⟨fun s b rest => step_rxByte_rxWait, fun s t hs hc => ?_⟩
  cases hf : frameScan s.cfg s.rxbuf with
  | frame id len e p start stop =>
    by_cases hid : id = t.id
    · subst hid
      simpa using evaluate_awaited hc hf
    · rw [evaluate_eq, hf]
      simp only [hc, if_neg hid]
  | ckFail start stop =>
    rw [evaluate_eq, hf]
    exact congrArg _ (enterFailure_lineFailure_rxWait hs _)
  | noSync =>
    rw [evaluate_eq, hf]
    exact congrArg _ (enterFailure_lineFailure_rxWait hs _)
  | short began => rw [evaluate_eq, hf]

/-- Settles O44: the awaited frame completes the transaction, and the command decides what its result carries. -/
theorem awaitedStatusPacketIsTheResult : Obligations.AwaitedStatusPacketIsTheResult := by
  unfold Obligations.AwaitedStatusPacketIsTheResult
  rintro s t b rest len e p start stop hs hc he hf kind rfl
  have hstep : step s = .next (finished (statusAnswer s.cfg t e p (slice (s.rxbuf ++ [b]) start stop))
      { s with events := rest }) :=
    (step_rxByte_rxWait hs he).trans (evaluate_awaited hc hf)
  rw [hstep]
  refine ⟨fun hcmd => ?_, fun hcmd hw => ?_, fun hcmd hw => ?_, fun hraw hread => ?_⟩
  · simp [statusAnswer, hcmd]
  · simp [statusAnswer, hcmd, hw]
  · simp [statusAnswer, hcmd, hw]
  · simp [statusAnswer, hraw, hread]

/-! ## SYNC_READ -/

/-- A packet that fits is whole: its scan finds it from 0 to its end (40_framer.md R110, 42_commands.md R166). -/
theorem isWholePacket_packet {cfg : Config} {id b4 : Byte} {p : List Byte} (hcfg : cfg.wf = true) (hid : id ≠ 255)
    (hfits : p.length + 6 ≤ cfg.maxPacketBytes) : isWholePacket cfg (packet id b4 p) = true := by
  have hscan := scanFrom_packet (i := 0) (b4 := b4) [] hcfg (Nat.zero_le _) hid hfits
  rw [List.append_nil, Nat.zero_add] at hscan
  rw [← packetBytes_eq_packet, isWholePacket_iff, packetBytes_length]
  exact ⟨_, _, _, _, hscan⟩

/-- TRANSACT of a packet sends it, to be answered by the id in it (42_commands.md R166). -/
theorem execTransact_packet {s : State} {id b4 : Byte} {p : List Byte} (hs : s.phase = .idle)
    (hwhole : isWholePacket s.cfg (packet id b4 p) = true) (expect : Bool) :
    execTransact (packet id b4 p) expect s = .next (sending
      { cmd := .transact, id := id, instr := none, expect := expect, width := none } (packet id b4 p) s) := by
  refine acceptCommand_pass hs ?_
  rw [hwhole]
  rfl

/-- Settles O31: an idle block passes the common checks, and the packet of SYNC_READ is a whole packet as any other. -/
theorem syncReadIsRefusedOnAnOpenBlock : Obligations.SyncReadIsRefusedOnAnOpenBlock := by
  unfold Obligations.SyncReadIsRefusedOnAnOpenBlock
  intro s id params hs
  refine ⟨acceptCommand_pass (body := fun _ => .refused .syncReadUnspecified) hs firstFailure_nil,
    fun hcfg hid hfits => ⟨?_, fun expect => ?_⟩⟩
  · rw [encodePacket_ok hid hfits, packetBytes_eq_packet]
    rfl
  · exact execTransact_packet hs (isWholePacket_packet hcfg hid hfits) expect

/-! ## OPEN and CLOSE -/

theorem execOpen_busy {s : State} (h : s.busy = true) (port : PortName) (baud timeout : Nat) :
    execOpen port baud timeout s = .next s := by
  rcases busy_iff.1 h with h | h <;> simp only [execOpen, h]

theorem execClose_busy {s : State} (h : s.busy = true) : execClose s = .next s := by
  rcases busy_iff.1 h with h | h <;> simp only [execClose, h]

/-- Settles O35, by the phase of the block. -/
theorem openAndCloseLatchAndRelease : Obligations.OpenAndCloseLatchAndRelease := by
  unfold Obligations.OpenAndCloseLatchAndRelease
  intro s port baud timeout
  simp only [execCommand]
  refine ⟨fun h => ?_, fun h => ?_, fun h => ?_, fun h => ?_, fun h => ⟨execOpen_busy h _ _ _, execClose_busy h⟩⟩
  · simp only [execOpen, h]
    rfl
  · simp only [execOpen, h, enterFailure_idle]
    rfl
  · simp only [execClose, h]
    rfl
  · simp only [execClose, h]
    rfl

/-! ## The transmitter -/

/-- In TX the line takes the first queued byte; after the last one the transmission is done (42_commands.md R154). -/
theorem onTxAccept_tx {s : State} {b : Byte} {queue : List Byte} (h : s.phase = .tx) (hq : s.txq = b :: queue) :
    onTxAccept s = if queue = [] then txDone { s with wireOut := s.wireOut ++ [b], txq := queue }
      else .next { s with wireOut := s.wireOut ++ [b], txq := queue } := by
  simp only [onTxAccept, h, hq]

theorem txDone_awaited {s : State} {t : Txn} (hc : s.cur = some t) (ht : t.expect = true) :
    txDone s = .next { s with phase := .rxWait } := by
  simp only [txDone, hc, ht, if_true]

theorem txDone_unawaited {s : State} {t : Txn} (hc : s.cur = some t) (ht : t.expect = false) :
    txDone s = .next (finished { kind := .ok } s) := by
  simp only [txDone, hc, ht, Bool.false_eq_true, if_false]
  rfl

/-- Settles O40: the byte taken is the last one or not, and after the last a status packet is awaited or not. -/
theorem transmitterTakesTheQueueByteByByte : Obligations.TransmitterTakesTheQueueByteByByte := by
  unfold Obligations.TransmitterTakesTheQueueByteByByte
  intro s t b queue rest hs hq hc he
  rw [step_cons he, takeEvent, onTxAccept_tx (s := { s with events := rest }) hs hq]
  refine ⟨fun hne => if_neg hne, fun hlast ht => ?_, fun hlast ht => ?_⟩
  · subst hlast
    exact txDone_awaited hc ht
  · subst hlast
    exact txDone_unawaited hc ht

/-! ## The receiver, the timer and the port -/

/-- Settles O41, by the phase of the block. -/
theorem bytesReceivedOutsideAWait : Obligations.BytesReceivedOutsideAWait := by
  unfold Obligations.BytesReceivedOutsideAWait
  intro s b rest he
  rw [step_cons he, takeEvent]
  refine ⟨fun h => ?_, fun h => ?_, fun h => ?_⟩ <;> simp only [onRxByte, h]

theorem onTimeout_of_ne_rxWait {s : State} (h : s.phase ≠ .rxWait) : onTimeout s = .next s := by
  cases hp : s.phase with
  | rxWait => exact absurd hp h
  | _ => simp only [onTimeout, hp]

/-- Settles O42: no timer runs outside a response wait. -/
theorem timeoutOutsideAWaitChangesNothing : Obligations.TimeoutOutsideAWaitChangesNothing := by
  unfold Obligations.TimeoutOutsideAWaitChangesNothing
  intro s rest hs he
  exact (step_cons he).trans (onTimeout_of_ne_rxWait hs)

/-- An expiry in a response wait completes the transaction with what the scan of the buffer says (42_commands.md R160). -/
theorem onTimeout_rxWait {s : State} (h : s.phase = .rxWait) :
    onTimeout s = .next (finished { kind := expiryKind s.cfg s.rxbuf } s) := by
  simp only [onTimeout, h, enterFailure_lineFailure_rxWait]

theorem expiryKind_began {cfg : Config} {buf : List Byte} (h : frameScan cfg buf = .short true) :
    expiryKind cfg buf = .framing := by
  rw [expiryKind, h]

theorem expiryKind_of_ne {cfg : Config} {buf : List Byte} (h : frameScan cfg buf ≠ .short true) :
    expiryKind cfg buf = .timeout := by
  unfold expiryKind
  split
  · exact absurd ‹_› h
  all_goals rfl

/-- Settles O45: the expiry completes with the kind the scan gives. -/
theorem expiryReportsFramingOrTimeout : Obligations.ExpiryReportsFramingOrTimeout := by
  unfold Obligations.ExpiryReportsFramingOrTimeout
  intro s rest hs he
  have hstep : step s = .next (finished { kind := expiryKind s.cfg s.rxbuf } { s with events := rest }) :=
    (step_cons he).trans (onTimeout_rxWait hs)
  rw [hstep]
  exact ⟨fun h => by rw [expiryKind_began h], fun h => by rw [expiryKind_of_ne h]⟩

theorem onIoFail_closed {s : State} (h : s.phase = .closed) : onIoFail s = .next s := by
  simp only [onIoFail, h]

theorem onIoFail_open {s : State} (h : s.phase ≠ .closed) : onIoFail s = .next (closeOnIoFail s) := by
  cases hp : s.phase with
  | closed => exact absurd hp h
  | _ => simp only [onIoFail, hp]

/-- Settles O46: an open block is closed, and only a transaction in flight is answered. -/
theorem ioFailureClosesTheBlock : Obligations.IoFailureClosesTheBlock := by
  unfold Obligations.IoFailureClosesTheBlock
  intro s rest he
  refine ⟨fun hs => ?_, fun hs => (step_cons he).trans (onIoFail_closed hs)⟩
  rw [step_cons he, takeEvent, onIoFail_open (s := { s with events := rest }) hs]
  cases s.cur <;> simp [closeOnIoFail, portClosedError]

end Sys2Proof.Machine

/-! PROOFS. The statement of 60_exceptions.md R209 on the operand checks of READ, WRITE and REG_WRITE (42_commands.md
R170, R173, R175, R239). -/

namespace Sys2Proof.Machine

open Sys2Proof.Claims

/-! ## The operand checks of the register commands -/

/-- Past the checks, a packet above the ceiling is refused by Encode (40_framer.md R103, 60_exceptions.md R209). -/
theorem acceptCommand_tooLong {checks : List (Bool × Reason)} {cmd : TxnCmd} {op : Opcode} {id : Byte} {p : List Byte}
    {w : Option Nat} {s : State} (hs : s.phase = .idle) (hc : firstFailure checks = none) (hid : id ≠ 255)
    (hp : s.cfg.maxPacketBytes < p.length + 6) :
    acceptCommand checks (sendRequest cmd op id p w) s = .next (rejected .tooLong s) :=
  (acceptCommand_pass hs hc).trans (sendRequest_tooLong hs hid hp)

section Checks
variable {id addr : Byte} {s : State} (hs : s.phase = .idle)
include hs

theorem execRead_badId (hid : id = 255) (w : Nat) : execRead id addr w s = .next (rejected .badId s) :=
  acceptCommand_rejects hs (firstFailure_decide_of hid _ _)

/-- Reads never go to the broadcast id (70_reset_and_hazards.md R239). -/
theorem execRead_badBroadcast (hid : id = broadcastId) (w : Nat) :
    execRead id addr w s = .next (rejected .badBroadcast s) := by
  have h255 : id ≠ 255 := by
    rw [hid]
    decide
  refine acceptCommand_rejects hs ?_
  rw [firstFailure_decide_cons h255, firstFailure_decide_of hid]

theorem execRead_badWidth (hid : id.toNat ≤ 253) {w : Nat} (hw : w < 1 ∨ s.cfg.maxParams < w) :
    execRead id addr w s = .next (rejected .badWidth s) := by
  have h255 : id ≠ 255 := byte_ne_of_toNat_le hid (by decide)
  have h254 : id ≠ broadcastId := byte_ne_of_toNat_le hid (by decide)
  refine acceptCommand_rejects hs ?_
  rw [firstFailure_decide_cons h255, firstFailure_decide_cons h254, firstFailure_decide_of hw]

/-- The request of a READ has eight bytes, whatever the width it asks for. -/
theorem execRead_tooLong (hid : id.toNat ≤ 253) {w : Nat} (hw : ¬ (w < 1 ∨ s.cfg.maxParams < w))
    (h8 : s.cfg.maxPacketBytes < 8) : execRead id addr w s = .next (rejected .tooLong s) := by
  have h255 : id ≠ 255 := byte_ne_of_toNat_le hid (by decide)
  have h254 : id ≠ broadcastId := byte_ne_of_toNat_le hid (by decide)
  refine acceptCommand_tooLong hs ?_ h255 h8
  rw [firstFailure_decide_cons h255, firstFailure_decide_cons h254, firstFailure_decide_cons hw, firstFailure_nil]

variable (cmd : TxnCmd) (op : Opcode)

theorem writeRequest_badId (hid : id = 255) (data : List Byte) :
    writeRequest cmd op id addr data s = .next (rejected .badId s) :=
  acceptCommand_rejects hs (firstFailure_decide_of hid _ _)

theorem writeRequest_badShape (hid : id ≠ 255) : writeRequest cmd op id addr [] s = .next (rejected .badShape s) := by
  refine acceptCommand_rejects hs ?_
  rw [firstFailure_decide_cons hid, firstFailure_decide_of rfl]

theorem writeRequest_tooLong (hid : id ≠ 255) {data : List Byte} (hdata : data ≠ [])
    (hlong : s.cfg.maxPacketBytes < data.length + 7) :
    writeRequest cmd op id addr data s = .next (rejected .tooLong s) := by
  refine acceptCommand_tooLong hs ?_ hid hlong
  rw [firstFailure_decide_cons hid, firstFailure_decide_cons hdata, firstFailure_nil]

end Checks

/-- Settles O33, clause by clause: the checks of READ, and those that WRITE and REG_WRITE share. -/
theorem registerCommandsCheckInOrder : Obligations.RegisterCommandsCheckInOrder := by
  unfold Obligations.RegisterCommandsCheckInOrder
  intro s id addr w data hs
  refine ⟨fun hid => ⟨?_, ?_, ?_⟩, fun hid => ?_, fun hid hw => ?_, fun hid hlow hhigh h8 => ?_,
    fun hid => ⟨?_, ?_⟩, fun hid hdata hlong => ⟨?_, ?_⟩⟩
  · exact execRead_badId hs hid w
  · exact writeRequest_badId hs .write .write hid data
  · exact writeRequest_badId hs .regWrite .regWrite hid data
  · exact execRead_badBroadcast hs hid w
  · exact execRead_badWidth hs hid (hw.imp_left Nat.lt_one_iff.2)
  · exact execRead_tooLong hs hid (not_or.2 ⟨Nat.not_lt.2 hlow, Nat.not_lt.2 hhigh⟩) h8
  · exact writeRequest_badShape hs .write .write hid
  · exact writeRequest_badShape hs .regWrite .regWrite hid
  · exact writeRequest_tooLong hs .write .write hid hdata hlong
  · exact writeRequest_tooLong hs .regWrite .regWrite hid hdata hlong

end Sys2Proof.Machine

/-! PROOFS. The whole-machine rules (10_state.md R22 to R30, R37, R40; 42_commands.md R155, R164): the block invariant
and what it says of steps, results, the queue, the port and broadcasts. -/

namespace Sys2Proof.Machine

open Sys2Proof.Claims

/-! ## Ready and busy -/

theorem ready_eq_false_of_busy {s : State} (h : s.busy = true) : s.ready = false := by
  simpa [busy_eq_not_ready] using h

theorem ready_ne_true_of_busy {s : State} (h : s.busy = true) : s.ready ≠ true :=
  ne_true_of_eq_false (ready_eq_false_of_busy h)

theorem busy_of_ready_eq_false {s : State} (h : s.ready = false) : s.busy = true := by
  rw [busy_eq_not_ready, h]
  rfl

/-! ## What a step can do -/

/-- A step takes the first event offered, or changes nothing where none is. -/
theorem step_done {s : State} {o : Outcome} (h : step s = o) :
    (s.events = [] ∧ o = .next s) ∨
      ∃ e rest, s.events = e :: rest ∧ EventDone { s with events := rest } e o := by
  subst h
  cases he : s.events with
  | nil => exact .inl ⟨rfl, step_nil he⟩
  | cons e rest => exact .inr ⟨e, rest, rfl, by rw [step_cons he]; exact takeEvent_done e _⟩

/-- What an event taken is, where it is a command that may be accepted: the one presented, or the waiting one. -/
def Event.command (held : List Command) : Event → Option Command
  | .cmd c => some c
  | .reoffer k => held[k]?
  | .txAccept | .rxByte _ | .timeout | .ioFail => none

theorem acceptedNext_nil {s : State} (h : s.events = []) : acceptedNext s = none := by
  simp [acceptedNext, h]

/-- A ready block accepts the command of the next event, a busy one none (10_state.md R38). -/
theorem acceptedNext_cons {s : State} {e : Event} {rest : List Event} (he : s.events = e :: rest) :
    acceptedNext s = if s.ready then e.command s.held else none := by
  cases e <;> simp [acceptedNext, he, Event.command]

theorem acceptedNext_ready {s : State} {e : Event} {rest : List Event} (hr : s.ready = true)
    (he : s.events = e :: rest) : acceptedNext s = e.command s.held := by
  rw [acceptedNext_cons he, if_pos hr]

/-! ## The invariant, phase by phase -/

/-- OPEN has latched its three operands (10_state.md R23). -/
def State.Latched (s : State) : Prop := s.port.isSome ∧ s.baud.isSome ∧ s.timeout.isSome

section Phases
variable {s : State}

theorem inv_of_closed (hcfg : s.cfg.wf = true) (hp : s.phase = .closed) (hport : s.port = none) (hbaud : s.baud = none)
    (htimeout : s.timeout = none) (hq : s.txq = []) (hbuf : s.rxbuf = []) (hc : s.cur = none) : s.Inv where
  cfgWf := hcfg
  busyIffCur := by simp [State.busy, hp, hc]
  txqIffTx := by simp [hq, hp]
  txqBound := by simp [hq]
  portIffOpen := by simp [State.isOpen, hp, hport, hbaud, htimeout]
  rxbufEmpty _ := hbuf
  curLegal t ht := by simp [hc] at ht
  waitOpen h := by simp [hp] at h

theorem inv_of_idle (hcfg : s.cfg.wf = true) (hp : s.phase = .idle) (hl : s.Latched) (hq : s.txq = [])
    (hc : s.cur = none) : s.Inv where
  cfgWf := hcfg
  busyIffCur := by simp [State.busy, hp, hc]
  txqIffTx := by simp [hq, hp]
  txqBound := by simp [hq]
  portIffOpen := by simpa [State.isOpen, hp, State.Latched] using hl
  rxbufEmpty h := by simp [hp] at h
  curLegal t ht := by simp [hc] at ht
  waitOpen h := by simp [hp] at h

theorem inv_of_tx {t : Txn} (hcfg : s.cfg.wf = true) (hp : s.phase = .tx) (hl : s.Latched) (hne : s.txq ≠ [])
    (hle : s.txq.length ≤ s.cfg.maxPacketBytes) (hbuf : s.rxbuf = []) (hc : s.cur = some t) (ht : t.legal = true) :
    s.Inv where
  cfgWf := hcfg
  busyIffCur := by simp [State.busy, hp, hc]
  txqIffTx := by simp [hne, hp]
  txqBound := hle
  portIffOpen := by simpa [State.isOpen, hp, State.Latched] using hl
  rxbufEmpty _ := hbuf
  curLegal t' ht' := Option.some.inj (hc.symm.trans ht') ▸ ht
  waitOpen h := by simp [hp] at h

theorem inv_of_rxWait {t : Txn} (hcfg : s.cfg.wf = true) (hp : s.phase = .rxWait) (hl : s.Latched) (hq : s.txq = [])
    (hc : s.cur = some t) (ht : t.legal = true) (hx : t.expect = true)
    (hw : (frameScan s.cfg s.rxbuf).waits = true) : s.Inv where
  cfgWf := hcfg
  busyIffCur := by simp [State.busy, hp, hc]
  txqIffTx := by simp [hq, hp]
  txqBound := by simp [hq]
  portIffOpen := by simpa [State.isOpen, hp, State.Latched] using hl
  rxbufEmpty h := by simp [hp] at h
  curLegal t' ht' := Option.some.inj (hc.symm.trans ht') ▸ ht
  waitOpen _ := ⟨⟨t, hc, hx⟩, hw⟩

variable (h : s.Inv)
include h

theorem State.Inv.latched (hp : s.phase ≠ .closed) : s.Latched := by
  have ho : s.isOpen = true := isOpen_iff.2 hp
  simpa [ho, State.Latched] using h.portIffOpen

theorem State.Inv.txq_eq_nil (hp : s.phase ≠ .tx) : s.txq = [] :=
  Classical.not_not.1 (mt h.txqIffTx.1 hp)

theorem State.Inv.cur_eq_none (hr : s.ready = true) : s.cur = none := by
  have hb := h.busyIffCur
  rw [busy_eq_not_ready, hr] at hb
  exact Option.isNone_iff_eq_none.1 (by simpa using hb.symm)

/-- In a busy phase a legal transaction is in flight. -/
theorem State.Inv.exists_cur (hb : s.busy = true) : ∃ t, s.cur = some t ∧ t.legal = true := by
  obtain ⟨t, ht⟩ := Option.isSome_iff_exists.1 (h.busyIffCur.symm.trans hb)
  exact ⟨t, ht, h.curLegal t ht⟩

/-- The histories, the waiting commands and the offered events are in no clause of the invariant. -/
theorem State.Inv.withHistories (wire : List Byte) (results : List Result) (held : List Command)
    (events : List Event) :
    State.Inv { s with wireOut := wire, results := results, held := held, events := events } :=
  ⟨h.cfgWf, h.busyIffCur, h.txqIffTx, h.txqBound, h.portIffOpen, h.rxbufEmpty, h.curLegal, h.waitOpen⟩

/-- Completing a transaction leaves an open, idle block (42_commands.md R163). -/
theorem State.Inv.complete (hp : s.phase ≠ .closed) (r : Result) : (complete r s).Inv :=
  inv_of_idle h.cfgWf rfl (h.latched hp) rfl rfl

theorem State.Inv.closeOnIoFail : (closeOnIoFail s).Inv :=
  inv_of_closed h.cfgWf rfl rfl rfl rfl rfl rfl rfl

end Phases

/-- Settles O22: the reset values are those of a closed block. -/
theorem resetMeetsTheBlockInvariant : Obligations.ResetMeetsTheBlockInvariant := by
  unfold Obligations.ResetMeetsTheBlockInvariant
  intro cfg hcfg
  exact inv_of_closed hcfg rfl rfl rfl rfl rfl rfl rfl

/-! ## The invariant is kept -/

/-- Accepting a command keeps the invariant. -/
theorem CommandDone.inv {s s' : State} {c : Command} (h : CommandDone s c (.next s')) (hs : s.Inv)
    (hr : s.ready = true) : s'.Inv := by
  cases h with
  | answered c r => exact hs.withHistories _ _ _ _
  | started c t q hp hq hlen ht =>
    exact inv_of_tx hs.cfgWf rfl (hs.latched (by simp [hp])) hq (hlen hs.cfgWf) rfl rfl ht
  | opened port baud timeout hp =>
    exact inv_of_idle hs.cfgWf rfl ⟨rfl, rfl, rfl⟩ (hs.txq_eq_nil (by simp [hp])) (hs.cur_eq_none hr)
  | closed hp =>
    exact inv_of_closed hs.cfgWf rfl rfl rfl rfl (hs.txq_eq_nil (by simp [hp])) rfl (hs.cur_eq_none hr)

theorem frameScan_nil_waits (cfg : Config) : (frameScan cfg []).waits = true := by
  rw [frameScan, scanFrom_short (Nat.zero_le _) (by simp)]
  rfl

/-- Taking an event keeps the invariant. -/
theorem EventDone.inv {s s' : State} {e : Event} (h : EventDone s e (.next s')) (hs : s.Inv) : s'.Inv := by
  cases h with
  | presented c o hr hc => exact hc.inv hs hr
  | held | stays | ignored => exact hs.withHistories _ _ _ _
  | reoffered k c o hr hk hc => exact hc.inv (hs.withHistories _ _ _ _) hr
  | sent b q hp hq hne =>
    obtain ⟨t, hc, ht⟩ := hs.exists_cur (busy_iff.2 (.inl hp))
    have hle := hs.txqBound
    rw [hq, List.length_cons] at hle
    exact inv_of_tx hs.cfgWf hp (hs.latched (by simp [hp])) hne (Nat.le_of_succ_le hle) (hs.rxbufEmpty (.inr hp)) hc ht
  | sentLast b t hp hq hc hx =>
    refine inv_of_rxWait hs.cfgWf rfl (hs.latched (by simp [hp])) rfl hc (hs.curLegal t hc) hx ?_
    have hbuf : s.rxbuf = [] := hs.rxbufEmpty (.inr hp)
    simp only [hbuf, frameScan_nil_waits]
  | sentAll b t hp => exact inv_of_idle hs.cfgWf rfl (hs.latched (by simp [hp])) rfl rfl
  | residual b hp =>
    exact inv_of_idle hs.cfgWf hp (hs.latched (by simp [hp])) (hs.txq_eq_nil (by simp [hp]))
      (hs.cur_eq_none (ready_iff.2 (.inr hp)))
  | waiting b buf hp hw =>
    obtain ⟨⟨t, hc, hx⟩, -⟩ := hs.waitOpen hp
    exact inv_of_rxWait hs.cfgWf hp (hs.latched (by simp [hp])) (hs.txq_eq_nil (by simp [hp])) hc (hs.curLegal t hc)
      hx hw
  | completed e r hp => exact hs.complete (by simp [hp]) r
  | lost => exact hs.closeOnIoFail

/-- Settles O47, by the cases of the event taken. -/
theorem everyStepKeepsTheBlockInvariant : Obligations.EveryStepKeepsTheBlockInvariant := by
  unfold Obligations.EveryStepKeepsTheBlockInvariant
  intro s s' hs hstep
  rcases step_done hstep with ⟨-, ho⟩ | ⟨e, rest, -, hdone⟩
  · cases ho
    exact hs
  · exact hdone.inv (hs.withHistories _ _ _ _)

/-! ## Results -/

/-- Accepting a command on a block without a transaction adds one to the results delivered and owed. -/
theorem CommandDone.answered_eq {s s' : State} {c : Command} (h : CommandDone s c (.next s')) (hcur : s.cur = none) :
    s'.answered = s.answered + 1 := by
  cases h <;> simp [State.answered, hcur]

/-- Taking an event adds one to the results delivered and owed exactly where it is the command of a ready block. -/
theorem EventDone.answered_eq {s s' : State} {e : Event} (h : EventDone s e (.next s')) (hs : s.Inv) :
    s'.answered = s.answered + (if (if s.ready then e.command s.held else none).isSome then 1 else 0) := by
  cases h with
  | presented c o hr hc => simp [hc.answered_eq (hs.cur_eq_none hr), hr, Event.command]
  | held c hb => simp [State.answered, ready_eq_false_of_busy hb]
  | reoffered k c o hr hk hc =>
    rw [hc.answered_eq (hs.cur_eq_none hr)]
    simp [State.answered, Event.command, hr, hk]
  | stays k hk =>
    rcases hk with hk | hb
    · simp [Event.command, hk]
    · simp [ready_eq_false_of_busy hb]
  | ignored e he => rcases he with rfl | ⟨b, rfl⟩ | rfl | rfl <;> simp [Event.command]
  | sent | sentLast | residual | waiting => simp [State.answered, Event.command]
  | sentAll b t hp hq hc => simp [State.answered, Event.command, hc]
  | completed e r hp he =>
    obtain ⟨t, hc, -⟩ := hs.exists_cur (busy_iff.2 (.inr hp))
    rcases he with rfl | ⟨b, rfl⟩ <;> simp [State.answered, Event.command, hc]
  | lost => cases hc : s.cur <;> simp [State.answered, Event.command, hc]

/-- Settles O49: a transaction starts only where none is in flight, and ends with one result. -/
theorem everyAcceptedCommandIsAnsweredOnce : Obligations.EveryAcceptedCommandIsAnsweredOnce := by
  unfold Obligations.EveryAcceptedCommandIsAnsweredOnce
  intro s s' hs hstep
  rcases step_done hstep with ⟨he, ho⟩ | ⟨e, rest, he, hdone⟩
  · cases ho
    simp [acceptedNext_nil he]
  · rw [acceptedNext_cons he]
    exact hdone.answered_eq (hs.withHistories _ _ _ _)

/-! ## Faults and refusals -/

/-- Accepting a command never faults, and refuses SYNC_READ on an idle block alone (42_commands.md R180). -/
theorem CommandDone.refused_inv {s : State} {c : Command} {r : Refusal} (h : CommandDone s c (.refused r)) :
    r = .syncReadUnspecified ∧ s.phase = .idle ∧ ∃ id p, c = .instr (.syncRead id p) := by
  cases h with
  | refused id p hp => exact ⟨rfl, hp, id, p, rfl⟩

theorem CommandDone.ne_fault {s : State} {c : Command} {f : Fault} : ¬ CommandDone s c (.fault f) := by
  rintro ⟨⟩

/-- Only a busy block without a transaction faults. -/
theorem EventDone.fault_inv {s : State} {e : Event} {f : Fault} (h : EventDone s e (.fault f)) :
    s.busy = true ∧ s.cur = none := by
  cases h with
  | presented c o hr hc => exact absurd hc CommandDone.ne_fault
  | reoffered k c o hr hk hc => exact absurd hc CommandDone.ne_fault
  | noTransaction e hb hc => exact ⟨hb, hc⟩

/-- Only a SYNC_READ on an idle block is refused. -/
theorem EventDone.refused_inv {s : State} {e : Event} {r : Refusal} (h : EventDone s e (.refused r)) :
    r = .syncReadUnspecified ∧ s.phase = .idle ∧ ∃ id p, e.command s.held = some (.instr (.syncRead id p)) := by
  cases h with
  | presented c o hr hc =>
    obtain ⟨rfl, hp, id, p, rfl⟩ := hc.refused_inv
    exact ⟨rfl, hp, id, p, rfl⟩
  | reoffered k c o hr hk hc =>
    obtain ⟨rfl, hp, id, p, rfl⟩ := hc.refused_inv
    exact ⟨rfl, hp, id, p, hk⟩

/-- Settles O48: the invariant gives a busy block its transaction, and only SYNC_READ is refused. -/
theorem safeStatesNeverFault : Obligations.SafeStatesNeverFault := by
  unfold Obligations.SafeStatesNeverFault
  refine fun s hs => ⟨fun f hstep => ?_, fun r hstep => ?_⟩
  · rcases step_done hstep with ⟨-, ho⟩ | ⟨e, rest, -, hdone⟩
    · cases ho
    obtain ⟨hb, hc⟩ := hdone.fault_inv
    obtain ⟨t, ht, -⟩ := hs.exists_cur hb
    exact Option.some_ne_none t (ht.symm.trans hc)
  · rcases step_done hstep with ⟨-, ho⟩ | ⟨e, rest, he, hdone⟩
    · cases ho
    obtain ⟨rfl, hp, hc⟩ := hdone.refused_inv
    rw [acceptedNext_ready (s := s) (ready_iff.2 (.inr hp)) he]
    exact ⟨rfl, hp, hc⟩

/-! ## The queue, the port and broadcasts -/

/-- While a transaction is in flight, taking an event adds nothing to the queue and starts no other transaction. -/
theorem EventDone.txq_suffix {s s' : State} {e : Event} (h : EventDone s e (.next s')) (hb : s.busy = true) :
    s'.txq <:+ s.txq ∧ (s'.cur = s.cur ∨ s'.cur = none) := by
  have hready := ready_ne_true_of_busy hb
  cases h with
  | presented c o hr => exact absurd hr hready
  | reoffered k c o hr => exact absurd hr hready
  | held | stays | ignored | residual | waiting => exact ⟨List.suffix_rfl, .inl rfl⟩
  | sent b q hp hq => exact ⟨hq ▸ List.suffix_cons b q, .inl rfl⟩
  | sentLast => exact ⟨List.nil_suffix, .inl rfl⟩
  | sentAll | completed | lost => exact ⟨List.nil_suffix, .inr rfl⟩

/-- Settles O51, by the cases of the event taken. -/
theorem nothingIsEnqueuedWhileBusy : Obligations.NothingIsEnqueuedWhileBusy := by
  unfold Obligations.NothingIsEnqueuedWhileBusy
  intro s s' hb hstep
  rcases step_done hstep with ⟨-, ho⟩ | ⟨e, rest, -, hdone⟩
  · cases ho
    exact ⟨List.suffix_rfl, .inl rfl⟩
  · exact hdone.txq_suffix hb

/-- The configuration OPEN latched is the same in both states (10_state.md R23). -/
def SameLatch (s s' : State) : Prop := s'.port = s.port ∧ s'.baud = s.baud ∧ s'.timeout = s.timeout

theorem SameLatch.refl (s : State) : SameLatch s s := ⟨rfl, rfl, rfl⟩

/-- Among the commands only OPEN and CLOSE write the latched configuration, and none writes the arguments. -/
theorem CommandDone.latch {s s' : State} {c : Command} (h : CommandDone s c (.next s')) :
    s'.cfg = s.cfg ∧
      (SameLatch s s' ∨ c = .closePort ∨ ∃ port baud timeout, c = .openPort port baud timeout) := by
  cases h with
  | answered | started => exact ⟨rfl, .inl (.refl s)⟩
  | opened port baud timeout => exact ⟨rfl, .inr (.inr ⟨port, baud, timeout, rfl⟩)⟩
  | closed => exact ⟨rfl, .inr (.inl rfl)⟩

/-- Among the events only `io_fail` and an accepted OPEN or CLOSE write the latched configuration. -/
theorem EventDone.latch {s s' : State} {e : Event} (h : EventDone s e (.next s')) :
    s'.cfg = s.cfg ∧ (SameLatch s s' ∨ e = .ioFail ∨ (s.ready = true ∧ (e.command s.held = some .closePort ∨
      ∃ port baud timeout, e.command s.held = some (.openPort port baud timeout)))) := by
  cases h with
  | presented c o hr hc =>
    obtain ⟨hcfg, hsame | rfl | ⟨port, baud, timeout, rfl⟩⟩ := hc.latch
    · exact ⟨hcfg, .inl hsame⟩
    · exact ⟨hcfg, .inr (.inr ⟨hr, .inl rfl⟩)⟩
    · exact ⟨hcfg, .inr (.inr ⟨hr, .inr ⟨port, baud, timeout, rfl⟩⟩)⟩
  | reoffered k c o hr hk hc =>
    obtain ⟨hcfg, hsame | rfl | ⟨port, baud, timeout, rfl⟩⟩ := hc.latch
    · exact ⟨hcfg, .inl hsame⟩
    · exact ⟨hcfg, .inr (.inr ⟨hr, .inl hk⟩)⟩
    · exact ⟨hcfg, .inr (.inr ⟨hr, .inr ⟨port, baud, timeout, hk⟩⟩)⟩
  | lost => exact ⟨rfl, .inr (.inl rfl)⟩
  | held | stays | ignored | sent | sentLast | sentAll | residual | waiting | completed =>
    exact ⟨rfl, .inl (.refl s)⟩

/-- Settles O52, by the cases of the event taken. -/
theorem onlyOpenCloseAndFailureWriteThePort : Obligations.OnlyOpenCloseAndFailureWriteThePort := by
  unfold Obligations.OnlyOpenCloseAndFailureWriteThePort
  intro s s' hstep
  rcases step_done hstep with ⟨-, ho⟩ | ⟨e, rest, he, hdone⟩
  · cases ho
    exact ⟨rfl, .inl (SameLatch.refl s)⟩
  obtain ⟨hcfg, hsame | rfl | ⟨hr, hc⟩⟩ := hdone.latch
  · exact ⟨hcfg, .inl hsame⟩
  · exact ⟨hcfg, .inr (.inl ⟨rest, he⟩)⟩
  · rw [acceptedNext_ready (s := s) hr he]
    exact ⟨hcfg, .inr (.inr hc)⟩

/-- A typed transaction to the broadcast id awaits no status packet (42_commands.md R164). -/
theorem Txn.expect_eq_false_of_broadcast {t : Txn} (ht : t.legal = true) (hcmd : t.cmd ≠ .transact)
    (hid : t.id = broadcastId) : t.expect = false := by
  cases hc : t.cmd with
  | transact => exact absurd hc hcmd
  | _ => simp_all [Txn.legal]

/-- Taking an event while a request without an awaited status packet is sent: the block goes on sending, or is done with
OK, or the port fails. -/
theorem EventDone.unawaited {s s' : State} {e : Event} {t : Txn} (h : EventDone s e (.next s')) (hp : s.phase = .tx)
    (hc : s.cur = some t) (hx : t.expect = false) :
    s'.phase = .tx ∨ (s'.phase = .idle ∧ s'.results = s.results ++ [okResult] ∧ s'.cur = none) ∨
      s'.phase = .closed := by
  have hready : s.ready ≠ true := by simp [ready_iff, hp]
  cases h with
  | presented c o hr => exact absurd hr hready
  | reoffered k c o hr => exact absurd hr hready
  | residual b hidle => simp [hp] at hidle
  | waiting b buf hw => simp [hp] at hw
  | completed e r hw => simp [hp] at hw
  | sentLast b t' _ _ hc' hx' =>
    obtain rfl := Option.some.inj (hc.symm.trans hc')
    simp [hx] at hx'
  | sentAll => exact .inr (.inl ⟨rfl, rfl, rfl⟩)
  | lost => exact .inr (.inr rfl)
  | held | stays | ignored | sent => exact .inl hp

/-- Settles O55: by the invariant the block is in TX and awaits nothing. -/
theorem broadcastsNeverWait : Obligations.BroadcastsNeverWait := by
  unfold Obligations.BroadcastsNeverWait
  intro s s' t hs hc hcmd hid hstep
  have hx : t.expect = false := Txn.expect_eq_false_of_broadcast (hs.curLegal t hc) hcmd hid
  have hp : s.phase = .tx := by
    have hb : s.busy = true := by rw [hs.busyIffCur, hc]; rfl
    refine (busy_iff.1 hb).resolve_right fun hw => ?_
    obtain ⟨⟨t', hc', hx'⟩, -⟩ := hs.waitOpen hw
    obtain rfl := Option.some.inj (hc.symm.trans hc')
    simp [hx] at hx'
  refine ⟨hp, ?_⟩
  rcases step_done hstep with ⟨-, ho⟩ | ⟨e, rest, -, hdone⟩
  · cases ho
    simp [hp]
  rcases hdone.unawaited hp hc hx with hp' | ⟨hp', hr, hc'⟩ | hp'
  · simp [hp']
  · exact ⟨by simp [hp'], fun _ => ⟨hr, hc'⟩⟩
  · simp [hp']

end Sys2Proof.Machine

/-! PROOFS. The statements of 40_framer.md and 41_decoder.md on packets: the checksum (R108), what a frame says of its
buffer (R125), the round trip (R133), noise (R134), corruption (R135), the bounded look of the scan (10_state.md R25),
and the request decoder (R132). -/

namespace Sys2Proof

open Sys2Proof.Machine Sys2Proof.Claims

/-! ## The round trip -/

/-- The parameter block of a well-formed instruction is cut into its operands again, whatever the instruction. -/
theorem instrOf_params {cfg : Config} (hcfg : cfg.wf = true) {i : Instr} (h : i.wf cfg = true) :
    instrOf i.opcode i.target i.params = .ok i := by
  have hi : Laws.Operands.Statement i := by
    cases i with
    | ping id => exact Laws.Operands.ping id
    | read id addr w => exact Laws.Operands.read id addr w
    | write id addr data => exact Laws.Operands.write id addr data
    | regWrite id addr data => exact Laws.Operands.regWrite id addr data
    | action id => exact Laws.Operands.action id
    | reset id => exact Laws.Operands.reset id
    | syncRead id params => exact Laws.Operands.syncRead id params
    | syncWrite ids addr w data => exact Laws.Operands.syncWrite ids addr w data
  exact hi cfg hcfg h

/-- A frame whose byte 4 is a code decodes to what its parameters are cut into. -/
theorem decode_of_frame {cfg : Config} {buf : List Byte} {id len b : Byte} {p : List Byte} {start stop : Nat}
    {op : Opcode} {i : Instr} (hs : frameScan cfg buf = .frame id len b p start stop)
    (hop : decodeInstr cfg b = some op) (hi : instrOf op id p = .ok i) : decode cfg buf = .ok i := by
  rw [decode, hs]
  simp only [hop, hi]

/-- Settles O2: the packet is found at 0, its byte 4 is the instruction's code, and its parameters are the operands. -/
theorem decodeOfEncodeGivesTheInstruction : Obligations.DecodeOfEncodeGivesTheInstruction := by
  unfold Obligations.DecodeOfEncodeGivesTheInstruction
  intro cfg i trailing hcfg hi
  obtain ⟨hid, hfits⟩ := Instr.wf_fits hcfg hi
  have hscan := scanFrom_packet (i := 0) (b4 := cfg.instrCode.code i.opcode) trailing hcfg (Nat.zero_le _) hid hfits
  exact ⟨_, encodePacket_ok hid hfits, decode_of_frame hscan (decodeInstr_code hcfg _) (instrOf_params hcfg hi)⟩

/-- Settles O1: the eight packets, decoded by evaluation. -/
theorem writtenPacketsDecode : Obligations.WrittenPacketsDecode := by
  unfold Obligations.WrittenPacketsDecode
  decide

/-! ## The checksum -/

/-- R108: a byte completes a body to the sum 255 exactly when it is the body's checksum. -/
theorem eq_checksum_iff (body : List Byte) (ck : Byte) :
    ck = checksum body ↔ (byteSum body + ck.toNat) % 256 = 255 := by
  rw [← BitVec.toNat_inj, checksum_toNat]
  have := ck.isLt
  omega

/-- Settles O5: the sum of the rule is `byteSum`, and a byte below 256 is fixed by it. -/
theorem checksumMakesTheSumAllOnes : Obligations.ChecksumMakesTheSumAllOnes := by
  unfold Obligations.ChecksumMakesTheSumAllOnes
  intro body ck
  rw [← byteSum_eq_sum]
  exact eq_checksum_iff body ck

/-! ## What a frame says of its buffer -/

/-- Settles O8: the bytes of the frame stand in the buffer as the packet of its fields. -/
theorem frameBytesAreThePacketOfItsFields : Obligations.FrameBytesAreThePacketOfItsFields := by
  unfold Obligations.FrameBytesAreThePacketOfItsFields
  intro cfg buf id len b4 params start stop hcfg hscan
  obtain ⟨⟨before, after, hbuf, hstart⟩, hid, hlen, hfits, hwindow, hstop⟩ := scanFrom_frame hcfg buf 0 hscan
  rw [Nat.zero_add] at hstart
  have hmax := Config.wf.upper hcfg
  have hn : len.toNat = params.length + 2 := hlen ▸ lenByte_toNat (by omega)
  have hend : stop = before.length + (packetBytes id b4 params).length := by rw [packetBytes_length]; omega
  refine ⟨?_, ?_, hid, by omega, by omega, hn.symm, by omega, hwindow⟩
  · rw [hbuf, hstart, hend, slice_append, packetBytes_eq_packet]
  · rw [hbuf, hend, List.length_append, List.length_append]
    exact Nat.le_add_right _ _

/-! ## Noise before a packet -/

/-- Noise without two consecutive 0xFF, nor with one in front of them, holds no marker (41_decoder.md R134). -/
theorem scanFrom_clean_noise {cfg : Config} {rest : List Byte} (noise : List Byte) : ∀ {i : Nat},
    i + noise.length ≤ cfg.lookahead →
    (∀ k : Nat, ¬ (noise[k]? = some (0xFF : Byte) ∧ noise[k + 1]? = some (0xFF : Byte))) →
    scanFrom cfg i (noise ++ 0xFF :: 0xFF :: rest)
      = scanFrom cfg (i + noise.length) (0xFF :: 0xFF :: rest) := by
  induction noise with
  | nil => exact fun _ _ => rfl
  | cons b noise ih =>
    intro i hi hclean
    rw [List.length_cons] at hi
    have hnext : scanFrom cfg i (b :: (noise ++ 0xFF :: 0xFF :: rest))
        = scanFrom cfg (i + 1) (noise ++ 0xFF :: 0xFF :: rest) := by
      cases noise with
      | nil =>
        by_cases hb : b = 0xFF
        · rw [hb]
          exact scanFrom_third rest (by omega)
        · exact scanFrom_skip (by omega) fun h => hb h.1
      | cons b' noise =>
        refine scanFrom_skip (by omega) fun h => hclean 0 ?_
        simp [h.1, h.2]
    rw [List.cons_append, hnext, ih (by omega) fun k => hclean (k + 1), List.length_cons, Nat.add_assoc,
      Nat.add_comm 1]

/-- Settles O9: the scan passes the noise and finds the packet at its end. -/
theorem cleanNoiseIsSkipped : Obligations.CleanNoiseIsSkipped := by
  unfold Obligations.CleanNoiseIsSkipped
  intro cfg noise id b4 params trailing hcfg hnoise hclean hid hfits
  have hscan := scanFrom_packet (b4 := b4) trailing hcfg hnoise hid hfits
  rw [← packetBytes_eq_packet, frameScan, List.append_assoc, ← hscan, packetBytes_cons]
  simpa using scanFrom_clean_noise noise (i := 0) (by omega) hclean

/-! ## Corruption -/

theorem byteSum_set {l : List Byte} {k : Nat} {a : Byte} (b : Byte) (h : l[k]? = some a) :
    byteSum (l.set k b) + a.toNat = byteSum l + b.toNat := by
  induction l generalizing k with
  | nil => simp at h
  | cons x l ih =>
    cases k with
    | zero =>
      obtain rfl : x = a := by simpa using h
      simp only [List.set_cons_zero, byteSum]
      omega
    | succ k =>
      have := ih (by simpa using h)
      simp only [List.set_cons_succ, byteSum]
      omega

/-- A different byte in one place changes the sum modulo 256. -/
theorem byteSum_set_mod_ne {l : List Byte} {k : Nat} {b : Byte} (hk : k < l.length) (hb : l[k]? ≠ some b) :
    byteSum (l.set k b) % 256 ≠ byteSum l % 256 := by
  have hget : l[k]? = some l[k] := List.getElem?_eq_getElem hk
  have hne : l[k].toNat ≠ b.toNat := fun h => hb (hget.trans (congrArg some (BitVec.eq_of_toNat_eq h)))
  have hsum := byteSum_set b hget
  have := b.isLt
  have := l[k].isLt
  omega

/-- A candidate that ends the buffer is a checksum failure unless its bytes, checksum included, sum to 255
(41_decoder.md R124). -/
theorem frameScan_ckFail_of_sum {cfg : Config} {id len : Byte} {body : List Byte} (hid : id ≠ 0xFF)
    (h2 : 2 ≤ len.toNat) (hmax : len.toNat + 4 ≤ cfg.maxPacketBytes) (hbody : body.length = len.toNat)
    (hsum : byteSum (id :: len :: body) % 256 ≠ 255) :
    frameScan cfg (0xFF :: 0xFF :: id :: len :: body) = .ckFail 0 (4 + len.toNat) := by
  obtain rfl | ⟨covered, ck, rfl⟩ := List.eq_nil_or_concat' body
  · rw [List.length_nil] at hbody
    omega
  have hlast : len.toNat - 1 = covered.length := by
    rw [List.length_append, List.length_singleton] at hbody
    omega
  have hck : ck ≠ checksum (id :: len :: covered) := by
    rw [Ne, eq_checksum_iff]
    simpa [byteSum, Nat.add_assoc] using hsum
  rw [frameScan, scanFrom_marker_getD (Nat.zero_le _), scanCandidate_whole hid h2 hmax hbody.ge, hlast,
    List.take_left, if_pos (by simpa using hck), Option.getD_some, Nat.zero_add]

/-- The bytes of a packet after its marker, checksum included, sum to 255 (40_framer.md R108). -/
theorem byteSum_packet_mod (id b4 : Byte) (p : List Byte) :
    byteSum (packetBody id b4 p ++ [checksum (packetBody id b4 p)]) % 256 = 255 := by
  rw [byteSum_append]
  exact (eq_checksum_iff _ _).1 rfl

/-- One byte changed, the length byte excepted: the sum after the marker is no longer 255 (41_decoder.md R135). -/
theorem frameScan_set_packet {cfg : Config} (hcfg : cfg.wf = true) {id b4 b : Byte} {p : List Byte} {k : Nat}
    (hid : id ≠ 0xFF) (hfits : p.length + 6 ≤ cfg.maxPacketBytes) (hk : k < (packetBytes id b4 p).length)
    (hplace : k = 2 ∨ 4 ≤ k) (hb : (packetBytes id b4 p)[k]? ≠ some b) (hb255 : k = 2 → b ≠ 0xFF) :
    frameScan cfg ((packetBytes id b4 p).set k b) = .ckFail 0 (p.length + 6) := by
  have hmax := Config.wf.upper hcfg
  have hlen : (BitVec.ofNat 8 (p.length + 2)).toNat = p.length + 2 := lenByte_toNat (by omega)
  have hstop : p.length + 6 = 4 + (BitVec.ofNat 8 (p.length + 2)).toNat := by omega
  have hsum := byteSum_packet_mod id b4 p
  rw [packetBytes] at hk hb ⊢
  obtain ⟨j, rfl⟩ : ∃ j, k = j + 2 := ⟨k - 2, by omega⟩
  have hchanged := byteSum_set_mod_ne (l := packetBody id b4 p ++ [checksum (packetBody id b4 p)]) (k := j) (b := b)
    (by simpa using hk) (by simpa using hb)
  rw [hsum] at hchanged
  rw [hstop]
  rcases hplace with hj | hj
  · obtain rfl : j = 0 := by omega
    exact frameScan_ckFail_of_sum (hb255 rfl) (by omega) (by omega) (by simp [hlen]) hchanged
  · obtain ⟨m, rfl⟩ : ∃ m, j = m + 2 := ⟨j - 2, by omega⟩
    exact frameScan_ckFail_of_sum hid (by omega) (by omega) (by simp [hlen]) hchanged

/-- Settles O10: a checksum failure of the scan is one of Decode. -/
theorem singleByteCorruptionIsDetected : Obligations.SingleByteCorruptionIsDetected := by
  unfold Obligations.SingleByteCorruptionIsDetected
  intro cfg id op params q k b hcfg hq hk hplace hb hb255
  obtain ⟨hid, hfits, rfl⟩ := encodePacket_eq_ok hq
  rw [decodeStatus, frameScan_set_packet hcfg hid hfits hk hplace hb hb255]

/-! ## The bounded look of the scan -/

/-- A candidate is judged by the bytes a packet of the largest size has after its marker (41_decoder.md R121, R123). -/
theorem scanCandidate_take {cfg : Config} {i m : Nat} (rest : List Byte) (h2 : 2 ≤ m)
    (hm : cfg.maxPacketBytes ≤ m + 2) : scanCandidate cfg i (rest.take m) = scanCandidate cfg i rest := by
  obtain ⟨n, rfl⟩ : ∃ n, m = n + 2 := ⟨m - 2, by omega⟩
  match rest with
  | [] | [_] => rfl
  | id :: len :: body =>
    simp only [List.take_succ_cons]
    by_cases hid : id = 0xFF
    · rw [hid, scanCandidate_third, scanCandidate_third]
    by_cases hlen : len.toNat < 2 ∨ cfg.maxPacketBytes < len.toNat + 4
    · rw [scanCandidate_implausible hid hlen, scanCandidate_implausible hid hlen]
    by_cases hbody : body.length < len.toNat
    · rw [List.take_of_length_le (by omega)]
    · have hgetD (k : Nat) (hk : k < n) : (body.take n).getD k 0 = body.getD k 0 := by
        simp [List.getD_eq_getElem?_getD, hk]
      rw [scanCandidate_whole hid (by omega) (by omega) (by rw [List.length_take]; omega),
        scanCandidate_whole hid (by omega) (by omega) (by omega), hgetD _ (by omega), hgetD _ (by omega),
        List.take_take, Nat.min_eq_left (by omega)]

/-- From index `i` on the scan reads no further than the largest packet at the end of the window. -/
theorem scanFrom_take {cfg : Config} (hcfg : cfg.wf = true) (l : List Byte) : ∀ {i n : Nat},
    cfg.lookahead + cfg.maxPacketBytes ≤ i + n → scanFrom cfg i (l.take n) = scanFrom cfg i l := by
  have hmin := Config.wf.lower hcfg
  induction l with
  | nil => simp
  | cons b0 l ih =>
    intro i n hn
    by_cases hi : cfg.lookahead < i
    · rw [scanFrom_past _ hi, scanFrom_past _ hi]
    obtain ⟨m, rfl⟩ : ∃ m, n = m + 2 := ⟨n - 2, by omega⟩
    cases l with
    | nil => rfl
    | cons b1 rest =>
      have hnext := ih (i := i + 1) (n := m + 1) (by omega)
      simp only [List.take_succ_cons] at hnext ⊢
      by_cases hmark : b0 = 0xFF ∧ b1 = 0xFF
      · obtain ⟨rfl, rfl⟩ := hmark
        rw [scanFrom_marker_getD (by omega), scanFrom_marker_getD (by omega), hnext,
          scanCandidate_take rest (by omega) (by omega)]
      · rw [scanFrom_skip (by omega) hmark, scanFrom_skip (by omega) hmark, hnext]

/-- Settles O11: the look from index 0. -/
theorem scanLooksAtABoundedPrefix : Obligations.ScanLooksAtABoundedPrefix := by
  unfold Obligations.ScanLooksAtABoundedPrefix
  intro cfg buf hcfg
  exact (scanFrom_take hcfg buf (by omega)).symm

/-! ## The request decoder -/

theorem awaitsData_iff (op : Opcode) : awaitsData op = true ↔ op = .ping ∨ op = .read ∨ op = .syncRead := by
  cases op <;> simp [awaitsData]

/-- A parameter block of the right shape is cut into the operands of an instruction, which lays them out again
(30_encoding.md R78 to R85). -/
theorem exists_instrOf_of_shapeOk {op : Opcode} {id : Byte} {p : List Byte} (h : shapeOk op p = true)
    (hid : op = .syncWrite → id = broadcastId) :
    ∃ i : Instr, instrOf op id p = .ok i ∧ i.opcode = op ∧ i.target = id ∧ i.params = p := by
  cases op with
  | ping =>
    obtain rfl := (shapeOk_empty_iff (.inl rfl) p).1 h
    exact ⟨.ping id, rfl, rfl, rfl, rfl⟩
  | action =>
    obtain rfl := (shapeOk_empty_iff (.inr (.inl rfl)) p).1 h
    exact ⟨.action id, rfl, rfl, rfl, rfl⟩
  | reset =>
    obtain rfl := (shapeOk_empty_iff (.inr (.inr rfl)) p).1 h
    exact ⟨.reset id, rfl, rfl, rfl, rfl⟩
  | read =>
    obtain ⟨addr, w, rfl, -⟩ := (shapeOk_read_iff p).1 h
    exact ⟨.read id addr w.toNat, rfl, rfl, rfl, by simp [Instr.params]⟩
  | write =>
    obtain ⟨addr, data, rfl, -⟩ := (shapeOk_write_iff (.inl rfl) p).1 h
    exact ⟨.write id addr data, rfl, rfl, rfl, rfl⟩
  | regWrite =>
    obtain ⟨addr, data, rfl, -⟩ := (shapeOk_write_iff (.inr rfl) p).1 h
    exact ⟨.regWrite id addr data, rfl, rfl, rfl, rfl⟩
  | syncRead => exact ⟨.syncRead id p, rfl, rfl, rfl, rfl⟩
  | syncWrite =>
    obtain ⟨addr, w, es, -, ⟨-, -, hnodup⟩, hes, rfl⟩ := (shapeOk_syncWrite_iff p).1 h
    have hle : es.length ≤ (entryBytes es).length := by
      rw [entryBytes_length hes]
      exact Nat.le_mul_of_pos_right _ (Nat.succ_pos _)
    refine ⟨.syncWrite (es.map Prod.fst) addr w.toNat es, ?_, rfl, (hid rfl).symm, ?_⟩
    · simp only [instrOf, hid rfl, ne_eq, not_true_eq_false, if_false, splitEntries_entryBytes hes _ hle]
    · simp [Instr.params, syncParams, flatMap_lookup_eq_entryBytes hnodup]

/-- The verdict of DecodeRequest on the fields of a frame whose instruction byte is known (41_decoder.md R132). -/
def judgeRequest (id : Byte) (op : Opcode) (p : List Byte) : Except Reject Request :=
  if shapeOk op p = false then .error (.verdict .badShape)
  else if id = broadcastId ∧ awaitsData op = true then .error (.verdict .badBroadcast)
  else if op = .syncWrite ∧ id ≠ broadcastId then .error (.verdict .badBroadcast)
  else .ok { id := id, op := op, params := p }

/-- Past the shape the verdict is about the broadcast id alone (41_decoder.md R132). -/
theorem judgeRequest_of_shapeOk {id : Byte} {op : Opcode} {p : List Byte} (h : shapeOk op p = true) :
    judgeRequest id op p =
      if (id = broadcastId ∧ awaitsData op = true) ∨ (op = .syncWrite ∧ id ≠ broadcastId) then
        .error (.verdict .badBroadcast)
      else .ok { id := id, op := op, params := p } := by
  rw [judgeRequest, if_neg (by simp [h])]
  by_cases hdata : id = broadcastId ∧ awaitsData op = true
  · rw [if_pos hdata, if_pos (.inl hdata)]
  by_cases hsync : op = .syncWrite ∧ id ≠ broadcastId
  · rw [if_neg hdata, if_pos hsync, if_pos (.inr hsync)]
  · rw [if_neg hdata, if_neg hsync, if_neg (not_or.2 ⟨hdata, hsync⟩)]

section Frame
variable {cfg : Config} {buf : List Byte} {id len b : Byte} {p : List Byte} {start stop : Nat}
  (hs : frameScan cfg buf = .frame id len b p start stop)
include hs

theorem decodeRequest_illegal (h : decodeInstr cfg b = none) :
    decodeRequest cfg buf = .error (.verdict .illegalInstruction) := by
  rw [decodeRequest, hs]
  simp only [h]

theorem decodeRequest_known {op : Opcode} (h : decodeInstr cfg b = some op) :
    decodeRequest cfg buf = judgeRequest id op p := by
  rw [decodeRequest, hs]
  simp only [h, judgeRequest]

end Frame

/-- Without a frame DecodeRequest fails as Decode does (41_decoder.md R132). -/
theorem decodeRequest_failure {cfg : Config} {buf : List Byte} {f : DecodeFailure}
    (h : decodeStatus cfg buf = .error f) : decodeRequest cfg buf = .error (.failure f) := by
  unfold decodeStatus at h
  unfold decodeRequest
  split at h <;> cases h <;> simp

/-- What DecodeRequest asks of the request it returns. -/
theorem decodeRequest_eq_ok {cfg : Config} {buf : List Byte} {r : Request} (h : decodeRequest cfg buf = .ok r) :
    ∃ (len b : Byte) (start stop : Nat), frameScan cfg buf = .frame r.id len b r.params start stop ∧
      decodeInstr cfg b = some r.op ∧ shapeOk r.op r.params = true ∧ (r.op = .syncWrite → r.id = broadcastId) := by
  cases hs : frameScan cfg buf with
  | frame id len b p start stop =>
    cases hop : decodeInstr cfg b with
    | none =>
      rw [decodeRequest_illegal hs hop] at h
      cases h
    | some op =>
      rw [decodeRequest_known hs hop, judgeRequest] at h
      split_ifs at h with hshape _ hsync
      cases h
      exact ⟨len, b, start, stop, rfl, hop, by simpa using hshape, fun h => not_not.1 fun hid => hsync ⟨h, hid⟩⟩
  | ckFail a b =>
    rw [decodeRequest, hs] at h
    cases h
  | noSync =>
    rw [decodeRequest, hs] at h
    cases h
  | short began =>
    rw [decodeRequest, hs] at h
    cases began <;> cases h

/-- Settles O15: the verdicts in their order, the failures of Decode, and the instruction a request is of. -/
theorem decodedRequestIsAnInstruction : Obligations.DecodedRequestIsAnInstruction := by
  unfold Obligations.DecodedRequestIsAnInstruction
  refine ⟨fun cfg buf id len b p start stop hs => ⟨decodeRequest_illegal hs, fun op hop => ?_⟩,
    fun cfg buf f => decodeRequest_failure, fun cfg buf r hcfg h => ?_⟩
  · rw [decodeRequest_known hs hop]
    refine ⟨fun hshape => if_pos hshape, fun hshape => ?_⟩
    rw [judgeRequest_of_shapeOk hshape, ← awaitsData_iff]
    exact ⟨fun hbad => if_pos hbad, fun hdata hsync => if_neg (not_or.2 ⟨hdata, hsync⟩)⟩
  · obtain ⟨len, b, start, stop, hs, hop, hshape, hsync⟩ := decodeRequest_eq_ok h
    obtain ⟨⟨before, after, hbuf, -⟩, hid, -, hfits, -⟩ := scanFrom_frame hcfg buf 0 hs
    obtain ⟨i, hi, hiop, hitarget, hiparams⟩ := exists_instrOf_of_shapeOk hshape hsync
    refine ⟨i, _, before, after, decode_of_frame hs hop hi, hiop, hitarget, hiparams, ?_, hbuf⟩
    rw [encode, hiop, hitarget, hiparams, encodePacket_ok hid hfits, code_of_decodeInstr hop]

end Sys2Proof

/-! PROOFS. The statements of 42_commands.md on accepting commands: little-endian values (00_scope.md R15), SYNC_WRITE
(R178), TRANSACT (R166), the control commands, what acceptance leaves unchanged, and what the block does not read
(10_state.md R23, R25). -/

namespace Sys2Proof.Machine

open Sys2Proof.Claims

/-! ## Little-endian values -/

theorem leBytes_getElem? {v w k : Nat} (hk : k < w) : (leBytes v w)[k]? = some (BitVec.ofNat 8 (v / 256 ^ k)) := by
  induction w generalizing v k with
  | zero => exact absurd hk (Nat.not_lt_zero k)
  | succ w ih =>
    cases k with
    | zero => simp [leBytes]
    | succ k => rw [leBytes, List.getElem?_cons_succ, ih (Nat.lt_of_succ_lt_succ hk), Nat.div_div_eq_div_mul, pow_succ']

theorem leValue_eq_sum (l : List Byte) :
    leValue l = ((List.range l.length).map fun k => (l.getD k 0).toNat * 256 ^ k).sum := by
  induction l with
  | nil => rfl
  | cons b l ih =>
    have hshift : ∀ k, ((b :: l).getD (k + 1) 0).toNat * 256 ^ (k + 1) = 256 * ((l.getD k 0).toNat * 256 ^ k) := by
      intro k
      rw [List.getD_cons_succ, pow_succ']
      exact Nat.mul_left_comm _ _ _
    rw [leValue_cons, ih, List.length_cons, List.range_succ_eq_map, List.map_cons, List.map_map, List.sum_cons,
      ← List.sum_map_mul_left]
    simp only [Function.comp_def, Nat.succ_eq_add_one, hshift, List.getD_cons_zero, pow_zero, Nat.mul_one]

theorem leBytes_leValue (l : List Byte) : leBytes (leValue l) l.length = l := by
  induction l with
  | nil => rfl
  | cons b l ih =>
    have hb := b.isLt
    have hlow : BitVec.ofNat 8 (b.toNat + 256 * leValue l) = b := by
      apply BitVec.eq_of_toNat_eq
      rw [BitVec.toNat_ofNat]
      omega
    rw [leValue_cons, List.length_cons, leBytes, hlow, show (b.toNat + 256 * leValue l) / 256 = leValue l by omega, ih]

theorem leValue_lt (l : List Byte) : leValue l < 256 ^ l.length := by
  induction l with
  | nil => exact Nat.one_pos
  | cons b l ih =>
    have hb := b.isLt
    rw [leValue_cons, List.length_cons, pow_succ']
    omega

/-- Settles O16, clause by clause. -/
theorem littleEndianBytesAndValues : Obligations.LittleEndianBytesAndValues := by
  unfold Obligations.LittleEndianBytesAndValues
  exact ⟨leBytes_length, fun _ _ _ => leBytes_getElem?, leValue_eq_sum, leValue_leBytes, leBytes_leValue, leValue_lt⟩

/-! ## SYNC_WRITE -/

/-- SYNC_WRITE begins with the checks of the ids (42_commands.md R178). -/
theorem exec_syncWrite (ids : List Byte) (addr : Byte) (w : Nat) (data : List (Byte × List Byte)) (s : State) :
    exec (.syncWrite ids addr w data) s =
      acceptCommand (idChecks ids [(decide (w < 1 ∨ 255 < w), .badWidth), (someBytesMissing ids w data, .missingValue)])
        (sendRequest .syncWrite .syncWrite broadcastId (syncParams ids addr w data) none) s := rfl

theorem someBytesMissing_eq_false_iff {ids : List Byte} {w : Nat} {data : List (Byte × List Byte)} :
    someBytesMissing ids w data = false ↔ allBytesGiven ids w data := by
  simp [someBytesMissing, allBytesGiven]

/-- The checks of SYNC_WRITE pass on good ids, a width of a byte, and bytes of that width for every id. -/
theorem firstFailure_syncWrite_good {ids : List Byte} {w : Nat} {data : List (Byte × List Byte)} (hids : goodIds ids)
    (hlow : 1 ≤ w) (hhigh : w ≤ 255) (hdata : allBytesGiven ids w data) :
    firstFailure (idChecks ids [(decide (w < 1 ∨ 255 < w), .badWidth), (someBytesMissing ids w data, .missingValue)])
      = none := by
  rw [firstFailure_idChecks_good _ hids, firstFailure_decide_cons (by omega), someBytesMissing_eq_false_iff.2 hdata]
  rfl

/-- Settles O30: the checks pass, and the block of parameters has two bytes and `w + 1` for each id. -/
theorem syncWriteSendsOnePacket : Obligations.SyncWriteSendsOnePacket := by
  unfold Obligations.SyncWriteSendsOnePacket
  intro s ids addr w data hs hids hlow hhigh hdata hfits
  rw [exec_syncWrite]
  refine acceptCommand_sends hs (firstFailure_syncWrite_good hids hlow hhigh hdata) (by decide) ?_
  rw [syncParams_length hdata]
  omega

/-- Settles O34: the checks of the ids, then the width, then the bytes, and past them the ceiling of Encode. -/
theorem syncWriteChecksInOrder : Obligations.SyncWriteChecksInOrder := by
  unfold Obligations.SyncWriteChecksInOrder
  intro s ids addr w data hs
  rw [exec_syncWrite]
  refine ⟨fun h => ?_, fun h => ?_, fun hle h => ?_, fun hids hw => ?_, fun hids hlow hhigh h => ?_,
    fun hids hlow hhigh hdata hlong => ?_⟩
  · exact acceptCommand_rejects hs (firstFailure_idChecks_empty _ h)
  · exact acceptCommand_rejects hs (firstFailure_idChecks_badId _ h)
  · exact acceptCommand_rejects hs (firstFailure_idChecks_dupId _ hle h)
  · refine acceptCommand_rejects hs ((firstFailure_idChecks_good _ hids).trans ?_)
    exact firstFailure_decide_of (by omega) _ _
  · have hmissing : someBytesMissing ids w data = true := by
      rwa [← someBytesMissing_eq_false_iff, Bool.not_eq_false] at h
    refine acceptCommand_rejects hs ((firstFailure_idChecks_good _ hids).trans ?_)
    rw [firstFailure_decide_cons (by omega), hmissing]
    rfl
  · refine acceptCommand_tooLong hs (firstFailure_syncWrite_good hids hlow hhigh hdata) (by decide) ?_
    rw [syncParams_length hdata]
    omega

/-! ## TRANSACT -/

theorem execCommand_transact (q : List Byte) (expect : Bool) (s : State) :
    execCommand (.transact q expect) s = acceptCommand [(!isWholePacket s.cfg q, .badPacket)]
      (fun s => .next (startTx
        { cmd := .transact, id := q.getD 2 0, instr := none, expect := expect, width := none } q s)) s := rfl

/-- Settles O36: the one check of TRANSACT is the whole frame, whose id is the third byte. -/
theorem transactSendsOneWholePacket : Obligations.TransactSendsOneWholePacket := by
  unfold Obligations.TransactSendsOneWholePacket
  intro s q expect hs
  rw [execCommand_transact]
  refine ⟨fun id len b4 params hscan => ?_, fun hno => ?_⟩
  · have hwhole : isWholePacket s.cfg q = true := isWholePacket_iff.2 ⟨id, len, b4, params, hscan⟩
    rw [acceptCommand_pass hs (by rw [hwhole]; rfl), frameScan_id_at_start hscan]
    rfl
  · have hwhole : isWholePacket s.cfg q = false := by
      rw [Bool.eq_false_iff, Ne, isWholePacket_iff]
      rintro ⟨id, len, b4, params, hscan⟩
      exact hno id len b4 params hscan
    exact acceptCommand_rejects hs (by rw [hwhole]; rfl)

/-! ## The command interface -/

/-- Settles O32: each id fails the first check it is tried by. -/
theorem controlCommandsCheckTheirId : Obligations.ControlCommandsCheckTheirId := by
  unfold Obligations.ControlCommandsCheckTheirId
  intro s hs
  simp only [exec, execPing, execAction, execReset]
  refine ⟨acceptCommand_rejects hs ?_, acceptCommand_rejects hs ?_, acceptCommand_rejects hs ?_,
    acceptCommand_rejects hs ?_⟩ <;> decide

theorem exec_closed {s : State} (i : Instr) (h : s.phase = .closed) :
    exec i s = .next (deliver (portClosedError .notOpen) s) := by
  cases i with
  | syncRead id p => simp only [exec, execSyncRead]; exact acceptCommand_closed h
  | _ => exact acceptCommand_closed h

/-- Settles O25: every other command begins with the common check NOT_OPEN. -/
theorem closedBlockAnswersNotOpen : Obligations.ClosedBlockAnswersNotOpen := by
  unfold Obligations.ClosedBlockAnswersNotOpen
  intro s c h hopen hclose
  cases c with
  | instr i => exact exec_closed i h
  | transact q expect => rw [execCommand_transact]; exact acceptCommand_closed h
  | openPort port baud timeout => exact absurd rfl (hopen port baud timeout)
  | closePort => exact absurd rfl hclose
  | readRegister id addr w => exact acceptCommand_closed h
  | writeRegister id addr v w => exact acceptCommand_closed h
  | syncWriteValues ids addr w values => exact acceptCommand_closed h

/-- No command has an effect on a busy block (10_state.md R38). -/
theorem execCommand_busy {s : State} (c : Command) (h : s.busy = true) : execCommand c s = .next s := by
  cases c with
  | instr i => exact exec_busy i h
  | transact q expect => rw [execCommand_transact]; exact acceptCommand_busy h
  | openPort port baud timeout => exact execOpen_busy h port baud timeout
  | closePort => exact execClose_busy h
  | readRegister id addr w => exact acceptCommand_busy h
  | writeRegister id addr v w => exact acceptCommand_busy h
  | syncWriteValues ids addr w values => exact acceptCommand_busy h

theorem presentCommand_busy {s : State} (c : Command) (h : s.busy = true) :
    presentCommand c s = .next { s with held := s.held ++ [c] } := if_neg (ready_ne_true_of_busy h)

theorem reofferCommand_ready {s : State} {k : Nat} {c : Command} (h : s.ready = true) (hk : s.held[k]? = some c) :
    reofferCommand k s = execCommand c { s with held := s.held.eraseIdx k } := by
  simp only [reofferCommand, hk, h, if_true]

theorem reofferCommand_busy {s : State} (k : Nat) (h : s.busy = true) : reofferCommand k s = .next s := by
  cases hk : s.held[k]? with
  | none => simp only [reofferCommand, hk]
  | some c => simp only [reofferCommand, hk, if_neg (ready_ne_true_of_busy h)]

/-- Settles O24: a presented command joins the waiting ones, and a waiting one stays. -/
theorem busyBlockHoldsCommands : Obligations.BusyBlockHoldsCommands := by
  unfold Obligations.BusyBlockHoldsCommands
  refine ⟨fun s c rest h he => ?_, fun s k rest h he => ?_, fun s c h => execCommand_busy c h⟩
  · rw [step_cons he]
    exact presentCommand_busy (s := { s with events := rest }) c h
  · rw [step_cons he]
    exact reofferCommand_busy (s := { s with events := rest }) k h

/-- Outside TX, or with nothing to send, the line takes no byte (42_commands.md R150, R154). -/
theorem onTxAccept_not_enabled {s : State} (h : s.phase ≠ .tx ∨ s.txq = []) : onTxAccept s = .next s := by
  unfold onTxAccept
  split
  · rename_i b queue hp hq
    simp [hp, hq] at h
  all_goals rfl

/-- On a ready block a step runs the command presented (42_commands.md R151). -/
theorem step_presented {s : State} {c : Command} {rest : List Event} (hr : s.ready = true)
    (he : s.events = .cmd c :: rest) : step s = execCommand c { s with events := rest } := by
  rw [step_cons he]
  exact presentCommand_ready (s := { s with events := rest }) hr

/-- Settles O23: a ready block accepts what the next event presents. -/
theorem stepRunsThePresentedCommand : Obligations.StepRunsThePresentedCommand := by
  unfold Obligations.StepRunsThePresentedCommand
  refine ⟨fun s i rest => step_presented (c := .instr i), fun s c rest => step_presented,
    fun s k c rest hr he hk => ?_, fun s nbits w i hr hi => ?_, fun s => step_nil, fun s rest h he => ?_⟩
  · rw [step_cons he]
    exact reofferCommand_ready (s := { s with events := rest }) hr hk
  · have hfetch : s.withFetchWord nbits w = { s with events := .cmd (.instr i) :: s.events } := by
      rw [State.withFetchWord, hi]
    rw [hfetch]
    exact step_presented (s := { s with events := .cmd (.instr i) :: s.events }) hr rfl
  · rw [step_cons he, takeEvent]
    exact onTxAccept_not_enabled (s := { s with events := rest }) h

/-! ## What acceptance leaves unchanged -/

/-- Accepting a command writes neither the arguments nor the block's inputs. -/
theorem CommandDone.inputs {s s' : State} {c : Command} (h : CommandDone s c (.next s')) :
    s'.cfg = s.cfg ∧ s'.held = s.held ∧ s'.events = s.events := by
  cases h <;> exact ⟨rfl, rfl, rfl⟩

/-- A typed instruction that answers a next state fails or starts its transaction (60_exceptions.md R211). -/
theorem Accepted.next_cases {s s' : State} {i : Instr} (h : Accepted s i (.next s')) :
    (∃ r, s' = answer r s ∧ (r.kind = .encoding ∨ r.kind = .portClosed)) ∨ ∃ txn q, s' = sending txn q s := by
  cases h with
  | notOpen => exact .inl ⟨portClosedError .notOpen, rfl, .inr rfl⟩
  | failed i r => exact .inl ⟨encodingError r, rfl, .inl rfl⟩
  | started i t q => exact .inr ⟨t, q, rfl⟩

theorem sameLatch_of_accepted {s s' : State} {i : Instr} (h : Accepted s i (.next s')) : SameLatch s s' := by
  cases h <;> exact ⟨rfl, rfl, rfl⟩

/-- Settles O39, by what accepting a command can do. -/
theorem acceptanceFrame : Obligations.AcceptanceFrame := by
  unfold Obligations.AcceptanceFrame
  intro s t c hr hexec
  have hdone := execCommand_done c hr
  rw [hexec] at hdone
  obtain ⟨hcfg, hheld, hevents⟩ := hdone.inputs
  obtain ⟨hwire, hresults⟩ := hdone.histories
  refine ⟨hcfg, hwire, hheld, hevents, hresults, ?_⟩
  rintro i rfl
  have hacc := exec_accepted i hr
  rw [show exec i s = .next t from hexec] at hacc
  obtain ⟨hport, hbaud, htimeout⟩ := sameLatch_of_accepted hacc
  exact ⟨hport, hbaud, htimeout, hacc.next_cases⟩

/-! ## What the block does not read -/

/-- A transaction started in an idle state does not depend on the bytes received before it. -/
def ForgetsResidue (op : State → Outcome) : Prop :=
  ∀ (s t : State) (residue : List Byte), s.phase = .idle → op s = .next t → t.phase = .tx →
    op { s with rxbuf := residue } = .next t

theorem ForgetsResidue.acceptCommand {checks : List (Bool × Reason)} {body : State → Outcome} {s t : State}
    {residue : List Byte} (hbody : ForgetsResidue body) (hs : s.phase = .idle)
    (h : acceptCommand checks body s = .next t) (ht : t.phase = .tx) :
    acceptCommand checks body { s with rxbuf := residue } = .next t := by
  rw [acceptCommand_idle hs] at h
  rw [acceptCommand_idle (s := { s with rxbuf := residue }) hs]
  cases hf : firstFailure checks with
  | some r =>
    rw [hf] at h
    cases h
    simp [hs] at ht
  | none =>
    rw [hf] at h
    exact hbody s t residue hs h ht

theorem forgetsResidue_sendRequest (cmd : TxnCmd) (op : Opcode) (id : Byte) (p : List Byte) (w : Option Nat) :
    ForgetsResidue (sendRequest cmd op id p w) := by
  intro s t residue hs h ht
  rw [sendRequest] at h ⊢
  cases he : encodePacket s.cfg id op p with
  | error r =>
    rw [he] at h
    simp only [enterFailure_idle _ hs] at h
    cases h
    simp [hs] at ht
  | ok q =>
    rw [he] at h
    exact h

theorem forgetsResidue_exec (i : Instr) : ForgetsResidue (exec i) := by
  intro s t residue hs h ht
  cases i with
  | syncRead id p =>
    rw [show exec (.syncRead id p) s = .refused .syncReadUnspecified from
      acceptCommand_pass (body := fun _ => .refused .syncReadUnspecified) hs firstFailure_nil] at h
    cases h
  | _ => exact (forgetsResidue_sendRequest _ _ _ _ _).acceptCommand hs h ht

/-- Settles O54: the checks read operands and arguments, and starting the transaction clears the buffer. -/
theorem residualBytesDoNotReachATransaction : Obligations.ResidualBytesDoNotReachATransaction := by
  unfold Obligations.ResidualBytesDoNotReachATransaction
  intro s t c residue hs h ht
  cases c with
  | instr i => exact forgetsResidue_exec i s t residue hs h ht
  | transact q expect =>
    rw [execCommand_transact] at h ⊢
    exact ForgetsResidue.acceptCommand (body := fun s => .next (startTx _ q s)) (fun _ _ _ _ h _ => h) hs h ht
  | openPort port baud timeout =>
    simp only [execCommand, execOpen, hs, enterFailure_idle] at h
    cases h
    simp [hs] at ht
  | closePort =>
    simp only [execCommand, execClose, hs] at h
    cases h
    simp at ht
  | readRegister id addr w => exact forgetsResidue_exec (.read id addr w) s t residue hs h ht
  | writeRegister id addr v w => exact (forgetsResidue_exec (.write id addr (leBytes v w))).acceptCommand hs h ht
  | syncWriteValues ids addr w values =>
    exact (forgetsResidue_exec (.syncWrite ids addr w (valueBytes ids w values))).acceptCommand hs h ht

end Sys2Proof.Machine

/-! PROOFS. Port, baud rate and timeout are read by no rule (10_state.md R23). -/

namespace Sys2Proof.Machine

open Sys2Proof.Claims

/-- An outcome does not depend on the latched configuration, up to that configuration itself. -/
def PortBlind (op : State → Outcome) : Prop :=
  ∀ s, viewNext withoutPort (op (withoutPort s)) = viewNext withoutPort (op s)

theorem enterFailure_withoutPort (r : Result) (s : State) :
    enterFailure r (withoutPort s) = withoutPort (enterFailure r s) := by
  cases hr : s.ready with
  | true => rw [enterFailure_of_ready r hr, enterFailure_of_ready (s := withoutPort s) r hr]; rfl
  | false =>
    have hb := busy_of_ready_eq_false hr
    rw [enterFailure_of_busy r hb, enterFailure_of_busy (s := withoutPort s) r hb]
    rfl

theorem portBlind_failure (r : Result) : PortBlind fun s => .next (enterFailure r s) := by
  intro s
  simp only [enterFailure_withoutPort]
  rfl

/-- The common checks and the command's own read operands and arguments alone. -/
theorem PortBlind.acceptCommand {checks : State → List (Bool × Reason)} {body : State → Outcome}
    (hchecks : ∀ s, checks (withoutPort s) = checks s) (hbody : PortBlind body) :
    PortBlind fun s => acceptCommand (checks s) body s := by
  intro s
  simp only [hchecks]
  cases hp : s.phase with
  | closed => rw [acceptCommand_closed hp, acceptCommand_closed (s := withoutPort s) hp]; rfl
  | idle =>
    rw [acceptCommand_idle hp, acceptCommand_idle (s := withoutPort s) hp]
    cases firstFailure (checks s) with
    | some r => rfl
    | none => exact hbody s
  | tx | rxWait =>
    have hb : s.busy = true := by simp [busy_iff, hp]
    rw [acceptCommand_busy hb, acceptCommand_busy (s := withoutPort s) hb]
    rfl

theorem portBlind_sendRequest (cmd : TxnCmd) (op : Opcode) (id : Byte) (p : List Byte) (w : Option Nat) :
    PortBlind (sendRequest cmd op id p w) := by
  intro s
  rw [sendRequest, sendRequest]
  simp only [show (withoutPort s).cfg = s.cfg from rfl]
  cases encodePacket s.cfg id op p with
  | error r => exact portBlind_failure (encodingError r) s
  | ok q => rfl

theorem portBlind_exec (i : Instr) : PortBlind (exec i) := by
  cases i with
  | syncRead id p =>
    exact .acceptCommand (checks := fun _ => []) (body := fun _ => .refused .syncReadUnspecified) (fun _ => rfl)
      fun _ => rfl
  | _ => exact .acceptCommand (fun _ => rfl) (portBlind_sendRequest _ _ _ _ _)

theorem portBlind_execOpen (port : PortName) (baud timeout : Nat) : PortBlind (execOpen port baud timeout) := by
  intro s
  have hphase : (withoutPort s).phase = s.phase := rfl
  cases hp : s.phase <;> simp only [execOpen, hphase, hp, enterFailure_withoutPort] <;> rfl

theorem portBlind_execClose : PortBlind execClose := by
  intro s
  have hphase : (withoutPort s).phase = s.phase := rfl
  cases hp : s.phase <;> simp only [execClose, hphase, hp] <;> rfl

theorem portBlind_execCommand (c : Command) : PortBlind (execCommand c) := by
  cases c with
  | instr i => exact portBlind_exec i
  | transact q expect =>
    exact .acceptCommand (checks := fun s => [(!isWholePacket s.cfg q, .badPacket)]) (fun _ => rfl) fun _ => rfl
  | openPort port baud timeout => exact portBlind_execOpen port baud timeout
  | closePort => exact portBlind_execClose
  | readRegister id addr w => exact portBlind_exec (.read id addr w)
  | writeRegister id addr v w => exact .acceptCommand (fun _ => rfl) (portBlind_exec (.write id addr (leBytes v w)))
  | syncWriteValues ids addr w values =>
    exact .acceptCommand (fun _ => rfl) (portBlind_exec (.syncWrite ids addr w (valueBytes ids w values)))

theorem portBlind_presentCommand (c : Command) : PortBlind (presentCommand c) := by
  intro s
  cases hr : s.ready with
  | true =>
    rw [presentCommand_ready hr, presentCommand_ready (s := withoutPort s) hr]
    exact portBlind_execCommand c s
  | false =>
    have hb := busy_of_ready_eq_false hr
    rw [presentCommand_busy c hb, presentCommand_busy (s := withoutPort s) c hb]
    rfl

theorem reofferCommand_none {s : State} {k : Nat} (hk : s.held[k]? = none) : reofferCommand k s = .next s := by
  simp only [reofferCommand, hk]

theorem portBlind_reofferCommand (k : Nat) : PortBlind (reofferCommand k) := by
  intro s
  cases hr : s.ready with
  | true =>
    cases hk : s.held[k]? with
    | none => rw [reofferCommand_none hk, reofferCommand_none (s := withoutPort s) hk]; rfl
    | some c =>
      rw [reofferCommand_ready hr hk, reofferCommand_ready (s := withoutPort s) hr hk]
      exact portBlind_execCommand c { s with held := s.held.eraseIdx k }
  | false =>
    have hb := busy_of_ready_eq_false hr
    rw [reofferCommand_busy k hb, reofferCommand_busy (s := withoutPort s) k hb]
    rfl

theorem portBlind_txDone : PortBlind txDone := by
  intro s
  cases hc : s.cur with
  | none =>
    have hcur : (withoutPort s).cur = none := hc
    rw [txDone, txDone, hc, hcur]
  | some t =>
    cases hx : t.expect with
    | true => rw [txDone_awaited hc hx, txDone_awaited (s := withoutPort s) hc hx]; rfl
    | false => rw [txDone_unawaited hc hx, txDone_unawaited (s := withoutPort s) hc hx]; rfl

theorem portBlind_onTxAccept : PortBlind onTxAccept := by
  intro s
  by_cases h : s.phase ≠ .tx ∨ s.txq = []
  · rw [onTxAccept_not_enabled h, onTxAccept_not_enabled (s := withoutPort s) h]
    rfl
  obtain ⟨hp, hne⟩ := not_or.1 h
  obtain ⟨b, queue, hq⟩ := List.exists_cons_of_ne_nil hne
  rw [onTxAccept_tx (not_not.1 hp) hq, onTxAccept_tx (s := withoutPort s) (not_not.1 hp) hq]
  split
  · exact portBlind_txDone { s with wireOut := s.wireOut ++ [b], txq := queue }
  · rfl

theorem portBlind_evaluateUpTo (n : Nat) : PortBlind (evaluateUpTo n) := by
  induction n with
  | zero => exact fun _ => rfl
  | succ n ih =>
    intro s
    rw [evaluateUpTo, evaluateUpTo]
    simp only [show (withoutPort s).cfg = s.cfg from rfl, show (withoutPort s).rxbuf = s.rxbuf from rfl,
      show (withoutPort s).cur = s.cur from rfl]
    cases frameScan s.cfg s.rxbuf with
    | frame id len e p start stop =>
      cases s.cur with
      | none => rfl
      | some t =>
        by_cases hid : id = t.id
        · simp only [if_pos hid]
          rfl
        · simp only [if_neg hid]
          exact ih { s with rxbuf := s.rxbuf.drop stop, cur := some t }
    | ckFail => exact portBlind_failure (lineFailure .checksum) s
    | noSync => exact portBlind_failure (lineFailure .malformed) s
    | short => rfl

theorem portBlind_evaluate : PortBlind evaluate := fun s => portBlind_evaluateUpTo (s.rxbuf.length + 1) s

theorem portBlind_onRxByte (b : Byte) : PortBlind (onRxByte b) := by
  intro s
  have hphase : (withoutPort s).phase = s.phase := rfl
  cases hp : s.phase with
  | rxWait =>
    simp only [onRxByte, hphase, hp]
    exact portBlind_evaluate { s with phase := .rxWait, rxbuf := s.rxbuf ++ [b] }
  | _ => simp only [onRxByte, hphase, hp]; rfl

theorem portBlind_onTimeout : PortBlind onTimeout := by
  intro s
  by_cases hp : s.phase = .rxWait
  · rw [onTimeout_rxWait hp, onTimeout_rxWait (s := withoutPort s) hp]
    rfl
  · rw [onTimeout_of_ne_rxWait hp, onTimeout_of_ne_rxWait (s := withoutPort s) hp]
    rfl

theorem portBlind_onIoFail : PortBlind onIoFail := by
  intro s
  by_cases hp : s.phase = .closed
  · rw [onIoFail_closed hp, onIoFail_closed (s := withoutPort s) hp]
    rfl
  · rw [onIoFail_open hp, onIoFail_open (s := withoutPort s) hp]
    rfl

theorem portBlind_takeEvent (e : Event) : PortBlind (takeEvent e) := by
  cases e with
  | cmd c => exact portBlind_presentCommand c
  | reoffer k => exact portBlind_reofferCommand k
  | txAccept => exact portBlind_onTxAccept
  | rxByte b => exact portBlind_onRxByte b
  | timeout => exact portBlind_onTimeout
  | ioFail => exact portBlind_onIoFail

theorem portBlind_step : PortBlind step := by
  intro s
  cases he : s.events with
  | nil => rw [step_nil he, step_nil (s := withoutPort s) he]; rfl
  | cons e rest =>
    rw [step_cons he, step_cons (s := withoutPort s) he]
    exact portBlind_takeEvent e { s with events := rest }

/-- Settles O53: both states are the same one without the latched configuration. -/
theorem portAndRateAreReadByNothing : Obligations.PortAndRateAreReadByNothing := by
  unfold Obligations.PortAndRateAreReadByNothing
  intro s port baud timeout
  rw [← portBlind_step s, ← portBlind_step { s with port := port, baud := baud, timeout := timeout }]
  rfl

end Sys2Proof.Machine

/-! PROOFS. Whole transactions (42_commands.md R154 to R172): a request leaves byte by byte, a reply arrives byte by
byte, and a READ from end to end. -/

namespace Sys2Proof

/-- A packet that is not all there yet leaves the scan waiting (41_decoder.md R120, R121). -/
theorem frameScan_packet_take {cfg : Config} (hcfg : cfg.wf = true) {id b4 : Byte} {p : List Byte} {k : Nat}
    (hid : id ≠ 0xFF) (hfits : p.length + 6 ≤ cfg.maxPacketBytes) (hk : k < p.length + 6) :
    ∃ began, frameScan cfg ((packetBytes id b4 p).take k) = .short began := by
  have hmax := Config.wf.upper hcfg
  have hlen : (BitVec.ofNat 8 (p.length + 2)).toNat = p.length + 2 := lenByte_toNat (by omega)
  rw [frameScan]
  match k with
  | 0 | 1 => exact ⟨false, scanFrom_short (Nat.zero_le _) (by rw [List.length_take]; omega)⟩
  | 2 => exact ⟨true, scanFrom_marker_getD (rest := []) (Nat.zero_le _)⟩
  | 3 =>
    refine ⟨true, (scanFrom_marker_getD (rest := [id]) (Nat.zero_le _)).trans ?_⟩
    rw [scanCandidate_id hid, Option.getD_some]
  | k + 4 =>
    rw [packetBytes_cons]
    simp only [List.take_succ_cons]
    rw [scanFrom_marker_getD (Nat.zero_le _), scanCandidate_missing hid (by omega)
      (by rw [List.length_take]; omega), Option.getD_some]
    exact ⟨true, rfl⟩

end Sys2Proof

namespace Sys2Proof.Machine

open Sys2Proof.Claims

/-! ## The request -/

/-- The bytes `q` leave one by one in as many `tx_accept` events, by induction on `q`. -/
theorem run_txAccepts {t : Txn} {rest : List Event} (q : List Byte) : ∀ {s : State}, q ≠ [] → s.phase = .tx →
    s.cur = some t → s.txq = q → s.events = List.replicate q.length .txAccept ++ rest →
    run q.length s = .next (if t.expect then
        { s with phase := .rxWait, txq := [], wireOut := s.wireOut ++ q, events := rest }
      else finished { kind := .ok } { s with wireOut := s.wireOut ++ q, events := rest }) := by
  induction q with
  | nil => exact fun h => absurd rfl h
  | cons b q ih =>
    intro s _ hp hc hq he
    obtain ⟨hmore, hwait, hdone⟩ :=
      transmitterTakesTheQueueByteByByte s t b q (List.replicate q.length Event.txAccept ++ rest) hp hq hc he
    cases q with
    | nil =>
      cases hx : t.expect with
      | true => exact run_next (hwait rfl hx)
      | false => exact run_next (hdone rfl hx)
    | cons b' q =>
      have hrest := ih (s := { s with
        wireOut := s.wireOut ++ [b], txq := b' :: q, events := List.replicate (b' :: q).length .txAccept ++ rest })
        (List.cons_ne_nil b' q) hp hc rfl rfl
      simp only [List.append_assoc, List.singleton_append] at hrest
      exact (run_next (hmore (List.cons_ne_nil b' q))).trans hrest

/-- Settles O56: the whole queue, by induction on its bytes. -/
theorem wholeRequestGoesOnTheWire : Obligations.WholeRequestGoesOnTheWire := by
  unfold Obligations.WholeRequestGoesOnTheWire
  intro s t rest hp hc hne he
  exact run_txAccepts s.txq hne hp hc rfl he

/-! ## The reply -/

/-- One more step after several. -/
theorem run_succ {k : Nat} {s t : State} (h : run k s = .next t) : run (k + 1) s = step t := by
  rw [run_add h]
  simp only [run, Host.Core.run]
  rw [show core.step t = step t from rfl]
  cases step t <;> rfl

/-- A response wait that began with an empty buffer, when `k` bytes of the reply `q` have been collected. -/
def collected (q : List Byte) (k : Nat) (s : State) : State :=
  { s with rxbuf := q.take k, events := s.events.drop k }

section Reply
variable {s : State} {q : List Byte} {rest : List Event} (hp : s.phase = .rxWait)
  (he : s.events = q.map Event.rxByte ++ rest)
include hp he

/-- The next byte of the reply is appended and evaluated (42_commands.md R158). -/
theorem step_collected {k : Nat} (hk : k < q.length) : step (collected q k s) = evaluate (collected q (k + 1) s) := by
  have hev : (collected q k s).events = .rxByte q[k] :: s.events.drop (k + 1) := by
    have hlt : k < s.events.length := by
      rw [he, List.length_append, List.length_map]
      omega
    have hget : s.events[k] = .rxByte q[k] := by
      simp only [he]
      rw [List.getElem_append_left (by rwa [List.length_map]), List.getElem_map]
    rw [collected, List.drop_eq_getElem_cons hlt, hget]
  rw [step_rxByte_rxWait (s := collected q k s) hp hev, collected, collected, List.take_succ_eq_append_getElem hk]

/-- While the scan of what has arrived waits, the block only collects. -/
theorem run_collects (hbuf : s.rxbuf = []) {n : Nat} (hn : n ≤ q.length)
    (hwait : ∀ k < n, ∃ began, frameScan s.cfg (q.take k) = .short began) :
    ∀ k < n, run k s = .next (collected q k s) := by
  intro k
  induction k with
  | zero =>
    intro _
    rw [run_zero, collected, List.take_zero, List.drop_zero, ← hbuf]
  | succ k ih =>
    intro hk
    obtain ⟨began, hscan⟩ := hwait (k + 1) hk
    rw [run_succ (ih (by omega)), step_collected hp he (by omega), evaluate_eq]
    rw [show frameScan (collected q (k + 1) s).cfg (collected q (k + 1) s).rxbuf = .short began from hscan]

end Reply

/-- A whole packet in the buffer of a response wait: from the awaited id it is the result, from another it is discarded
(42_commands.md R159). -/
theorem evaluate_packet {s : State} {t : Txn} {id e : Byte} {p : List Byte} (hcfg : s.cfg.wf = true)
    (hc : s.cur = some t) (hid : id ≠ 0xFF) (hfits : p.length + 6 ≤ s.cfg.maxPacketBytes)
    (hbuf : s.rxbuf = packetBytes id e p) :
    evaluate s = .next (if id = t.id then finished (statusAnswer s.cfg t e p (packetBytes id e p)) s
      else { s with rxbuf := [] }) := by
  have hscan : frameScan s.cfg s.rxbuf
      = .frame id (BitVec.ofNat 8 (p.length + 2)) e p 0 (packetBytes id e p).length := by
    rw [hbuf, frameScan, packetBytes_length]
    simpa using scanFrom_packet (i := 0) (b4 := e) [] hcfg (Nat.zero_le _) hid hfits
  by_cases ht : id = t.id
  · subst ht
    rw [evaluate_awaited hc hscan, hbuf, slice_zero, List.take_length, if_pos rfl]
  · have hempty : frameScan s.cfg [] = .short false := scanFrom_short (Nat.zero_le _) Nat.two_pos
    rw [evaluate_eq, hscan]
    simp only [hc, if_neg ht, hbuf, List.drop_length]
    rw [evaluate_eq]
    simp only [hempty]

/-- Settles O57: every shorter prefix waits, and the last byte completes the packet. -/
theorem wholeReplyIsTakenByteByByte : Obligations.WholeReplyIsTakenByteByByte := by
  unfold Obligations.WholeReplyIsTakenByteByByte
  intro s t id e p rest hcfg hp hbuf hc hid hfits he
  rw [← packetBytes_eq_packet] at he ⊢
  have hlen := packetBytes_length id e p
  have hcollect := run_collects hp he hbuf hlen.ge fun k hk => frameScan_packet_take hcfg hid hfits hk
  refine ⟨hcollect, ?_⟩
  have hall : collected (packetBytes id e p) (p.length + 6) s
      = { s with rxbuf := packetBytes id e p, events := rest } := by
    rw [collected, ← hlen, List.take_length, he, List.drop_left' (List.length_map _)]
  rw [run_succ (hcollect (p.length + 5) (by omega)), step_collected hp he (by omega), hall,
    evaluate_packet (s := { s with rxbuf := packetBytes id e p, events := rest }) hcfg hc hid hfits rfl]
  split
  · rfl
  · rw [← hbuf]

/-! ## READ from end to end -/

/-- `s` in the response wait of the transaction `t`, its request `q` sent, with the events `rest` still offered. -/
def awaiting (t : Txn) (q : List Byte) (rest : List Event) (s : State) : State :=
  { s with phase := .rxWait, txq := [], rxbuf := [], cur := some t, wireOut := s.wireOut ++ q, events := rest }

theorem run_sending (s : State) {t : Txn} {q : List Byte} (rest : List Event) (hx : t.expect = true) (hq : q ≠ []) :
    run q.length (sending t q { s with events := List.replicate q.length .txAccept ++ rest })
      = .next (awaiting t q rest s) := by
  rw [run_txAccepts (t := t) (rest := rest) q hq rfl rfl rfl rfl, if_pos hx]
  rfl

/-- A whole transaction of any command: its request goes out and the awaited packet comes in, byte by byte. -/
theorem run_transaction {s : State} {t : Txn} {q p : List Byte} {e : Byte} {rest : List Event} (hcfg : s.cfg.wf = true)
    (hx : t.expect = true) (hq : q ≠ []) (hid : t.id ≠ 255) (hfits : p.length + 6 ≤ s.cfg.maxPacketBytes) :
    run (q.length + (p.length + 6)) (sending t q { s with
        events := List.replicate q.length .txAccept ++ ((packet t.id e p).map Event.rxByte ++ rest) })
      = .next (finished (statusAnswer s.cfg t e p (packet t.id e p)) (awaiting t q rest s)) := by
  have hreply := (wholeReplyIsTakenByteByByte (awaiting t q ((packet t.id e p).map Event.rxByte ++ rest) s) t t.id e p
    rest hcfg rfl rfl rfl hid hfits rfl).2
  rw [run_add (run_sending s _ hx hq), hreply, if_pos rfl]
  rfl

/-- Settles O58: the READ starts its transaction, whose eight request bytes and reply bytes are then taken. -/
theorem readTransactionReturnsTheValue : Obligations.ReadTransactionReturnsTheValue := by
  unfold Obligations.ReadTransactionReturnsTheValue
  intro s id addr e p rest hcfg hp hid hlow hhigh h8 he
  have h255 : id ≠ 255 := byte_ne_of_toNat_le hid (by decide)
  have h254 : id ≠ 254 := byte_ne_of_toNat_le hid (by decide)
  rw [List.append_assoc] at he
  have hfits : p.length + 6 ≤ s.cfg.maxPacketBytes := by omega
  have hstep := (step_presented (ready_iff.2 (.inr hp)) he).trans (readSendsItsRequest
    { s with events := List.replicate 8 .txAccept ++ ((packet id e p).map Event.rxByte ++ rest) }
    id addr p.length hcfg hp hid hlow hhigh h8).1
  have htxn := run_transaction (s := s) (t := { typedTxn .read .read id with width := some p.length })
    (q := packet id s.cfg.instrCode.read [addr, BitVec.ofNat 8 p.length]) (e := e) (rest := rest) hcfg
    (decide_eq_true h254) (List.cons_ne_nil _ _) h255 hfits
  rw [show p.length + 15 = 8 + (p.length + 6) + 1 by omega, run_next hstep]
  refine htxn.trans ?_
  simp [statusAnswer, typedTxn, finished, awaiting, hp]

end Sys2Proof.Machine

/-! PROOFS. The scan program on its results (42_commands.md R190). -/

namespace Sys2Proof.Machine

/-! ## What a scan makes of its results -/

/-- The kinds a scan goes on after (42_commands.md R190). -/
def ResultKind.GoesOn (k : ResultKind) : Prop := k ≠ .encoding ∧ k ≠ .portClosed

/-- The device answered the PING. -/
def ResultKind.isPresent (k : ResultKind) : Bool := decide (k = .ok ∨ k = .deviceError)

/-- The reply to the PING was damaged. -/
def ResultKind.isFaulted (k : ResultKind) : Bool := decide (k = .framing ∨ k = .malformed ∨ k = .checksum)

/-- A snapshot with the ids of further probes sorted into its two sets. -/
def BusSnapshot.add (b : BusSnapshot) (probes : List (Byte × Result)) : BusSnapshot :=
  { present := b.present ++ (probes.filter (·.2.kind.isPresent)).map (·.1)
    faulted := b.faulted ++ (probes.filter (·.2.kind.isFaulted)).map fun x => (x.1, x.2.kind) }

@[simp] theorem BusSnapshot.add_nil (b : BusSnapshot) : b.add [] = b := by simp [BusSnapshot.add]

theorem BusSnapshot.add_append (b : BusSnapshot) (xs ys : List (Byte × Result)) :
    (b.add xs).add ys = b.add (xs ++ ys) := by simp [BusSnapshot.add]

theorem BusSnapshot.mem_present_add {probes : List (Byte × Result)} {id : Byte} :
    id ∈ (({} : BusSnapshot).add probes).present ↔
      ∃ r, (id, r) ∈ probes ∧ (r.kind = .ok ∨ r.kind = .deviceError) := by
  simp [BusSnapshot.add, ResultKind.isPresent]

theorem BusSnapshot.mem_faulted_add {probes : List (Byte × Result)} {id : Byte} {kind : ResultKind} :
    (id, kind) ∈ (({} : BusSnapshot).add probes).faulted ↔
      ∃ r, (id, r) ∈ probes ∧ r.kind = kind ∧ (kind = .framing ∨ kind = .malformed ∨ kind = .checksum) := by
  simp only [BusSnapshot.add, List.nil_append, List.mem_map, List.mem_filter, ResultKind.isFaulted, decide_eq_true_eq]
  constructor
  · rintro ⟨⟨id', r⟩, ⟨hmem, hkind⟩, heq⟩
    obtain ⟨rfl, rfl⟩ := Prod.mk.inj heq
    exact ⟨r, hmem, rfl, hkind⟩
  · rintro ⟨r, hmem, rfl, hkind⟩
    exact ⟨(id, r), ⟨hmem, hkind⟩, rfl⟩

theorem probeResult_goesOn {r : Result} (h : r.kind.GoesOn) (id : Byte) (b : BusSnapshot) :
    probeResult id r b = some (b.add [(id, r)]) := by
  obtain ⟨henc, hport⟩ := h
  cases hk : r.kind with
  | encoding => exact absurd hk henc
  | portClosed => exact absurd hk hport
  | _ => simp [probeResult, BusSnapshot.add, hk, ResultKind.isPresent, ResultKind.isFaulted]

/-- Results a scan goes on after, one per id in order. -/
theorem foldl_read_goesOn (rs : List Result) : ∀ {ids : List Byte} {b : BusSnapshot}, rs.length ≤ ids.length →
    (∀ r ∈ rs, r.kind.GoesOn) → rs.foldl ScanRun.read { todo := ids, found := b }
      = { todo := ids.drop rs.length, found := b.add (ids.zip rs) } := by
  induction rs with
  | nil => intro ids b _ _; simp
  | cons r rs ih =>
    intro ids b hlen hrs
    cases ids with
    | nil => exact absurd hlen (Nat.not_succ_le_zero _)
    | cons id ids =>
      have hread : ScanRun.read { todo := id :: ids, found := b } r = { todo := ids, found := b.add [(id, r)] } := by
        simp only [ScanRun.read, probeResult_goesOn (hrs r List.mem_cons_self)]
      rw [List.foldl_cons, hread, ih (Nat.le_of_succ_le_succ hlen) fun x hx => hrs x (List.mem_cons_of_mem r hx),
        BusSnapshot.add_append]
      rfl

/-- A scan that went on after each of its results so far. -/
theorem scan_goesOn {lo hi : Nat} {rs : List Result} (hlen : rs.length ≤ hi + 1 - lo)
    (hrs : ∀ r ∈ rs, r.kind.GoesOn) :
    scan lo hi rs
      = { todo := (scanIds lo hi).drop rs.length, found := ({} : BusSnapshot).add ((scanIds lo hi).zip rs) } :=
  foldl_read_goesOn rs (by rwa [scanIds_length]) hrs

/-- A scan that has stopped reads nothing more. -/
theorem foldl_read_stopped {run : ScanRun} {r : Result} (h : run.stopped = some r) (rs : List Result) :
    rs.foldl ScanRun.read run = run := by
  have hread (x : Result) : run.read x = run := by simp only [ScanRun.read, h]
  induction rs with
  | nil => rfl
  | cons x rs ih => rw [List.foldl_cons, hread, ih]

theorem scanIds_getElem? {lo hi k : Nat} (hk : k < hi + 1 - lo) :
    (scanIds lo hi)[k]? = some (BitVec.ofNat 8 (lo + k)) := by
  simp [scanIds, hk]

/-- A probe of a scan is a result with the id of its place in the range. -/
theorem mem_zip_scanIds {lo hi : Nat} {rs : List Result} (hhi : hi ≤ 253) (hlen : rs.length = hi + 1 - lo) (id : Byte)
    (r : Result) : (id, r) ∈ (scanIds lo hi).zip rs ↔ ∃ k, rs[k]? = some r ∧ id.toNat = lo + k := by
  simp only [List.mem_iff_getElem?, List.getElem?_zip_eq_some]
  refine exists_congr fun k => and_comm.trans (and_congr_right fun hr => ?_)
  have hk : k < hi + 1 - lo := hlen ▸ (List.getElem?_eq_some_iff.1 hr).1
  rw [scanIds_getElem? hk, Option.some_inj, ← BitVec.toNat_inj, BitVec.toNat_ofNat, Nat.mod_eq_of_lt (by omega)]
  exact eq_comm

/-- Settles O59: the probes are the ids in order with their results, sorted by kind. -/
theorem scanSortsItsProbes : Obligations.ScanSortsItsProbes := by
  unfold Obligations.ScanSortsItsProbes
  intro lo hi rs hlo hhi hlen hrs
  have hdone := scan_goesOn hlen.le hrs
  have hmem := mem_zip_scanIds hhi hlen
  refine ⟨fun k hk => ?_, ?_, ?_, fun id => ?_, fun id kind => ?_⟩
  · have htake : (rs.take k).length = k := List.length_take_of_le hk.le
    have hid := scanIds_getElem? (lo := lo) (hi := hi) (hlen ▸ hk)
    rw [scan_goesOn (by omega) fun r hr => hrs r (List.mem_of_mem_take hr), htake, ScanRun.next]
    obtain ⟨hlt, hget⟩ := List.getElem?_eq_some_iff.1 hid
    simp only [List.drop_eq_getElem_cons hlt, hget]
  · rw [hdone, hlen, List.drop_of_length_le (scanIds_length lo hi).le]
    rfl
  · rw [hdone]
  · simp only [hdone, BusSnapshot.mem_present_add, hmem]
    exact ⟨fun ⟨r, ⟨k, hr, hid⟩, hkind⟩ => ⟨k, r, hr, hid, hkind⟩,
      fun ⟨k, r, hr, hid, hkind⟩ => ⟨r, ⟨k, hr, hid⟩, hkind⟩⟩
  · simp only [hdone, BusSnapshot.mem_faulted_add, hmem]
    exact ⟨fun ⟨r, ⟨k, hr, hid⟩, hkind⟩ => ⟨k, r, hr, hid, hkind⟩,
      fun ⟨k, r, hr, hid, hkind⟩ => ⟨r, ⟨k, hr, hid⟩, hkind⟩⟩

/-- Settles O60: the scan stops where it is on that result, and reads nothing more. -/
theorem scanStopsOnAClosedPort : Obligations.ScanStopsOnAClosedPort := by
  unfold Obligations.ScanStopsOnAClosedPort
  intro lo hi before after r hlen hbefore hr
  have hgo := scan_goesOn hlen.le hbefore
  obtain ⟨id, rest, htodo⟩ : ∃ id rest, (scan lo hi before).todo = id :: rest := by
    refine List.exists_cons_of_ne_nil (List.ne_nil_of_length_pos ?_)
    rw [hgo, List.length_drop, scanIds_length]
    omega
  have hstop : (scan lo hi before).read r = { scan lo hi before with stopped := some r } := by
    rcases ScanRun.read_cases r (by rw [hgo]) htodo with ⟨-, h⟩ | ⟨h, -⟩
    · exact h
    · exact absurd hr (not_or.2 h)
  have hall : scan lo hi (before ++ r :: after) = { scan lo hi before with stopped := some r } := by
    rw [scan, List.foldl_append, List.foldl_cons, ← scan, hstop]
    exact foldl_read_stopped (r := r) rfl after
  rw [hall]
  exact ⟨rfl, rfl, rfl⟩

end Sys2Proof.Machine
